-- ==== Sys2Proof/Word.lean ====
section
/-! DEFINITION. The two widths of the machine (00_scope.md R5, R6): bytes and 16-bit words, both unsigned bit
vectors whose arithmetic wraps. -/

namespace Sys2Proof

/-- `DATA_WIDTH` = 8: a memory cell, the register `A`, an opcode, an 8-bit immediate (R5). -/
abbrev Byte := BitVec 8

/-- `ADDR_WIDTH` = 16: an address, and the registers `PC`, `SP`, `HL` (R5). -/
abbrev Word := BitVec 16

end Sys2Proof
end

