-- ==== Sys2Proof/Machine/Flags.lean ====
section
/-! DEFINITION. The arithmetic of the machine and its flags. There is no flag to compute: 10_state.md R28, 42_inc_dec.md
R110, R111, R113. Every operation of R113's table wraps modulo its width and records nothing; those on `PC` and `SP` are
the additions and subtractions of `fetch8`, `push8`, `pop8` and `returnAddress`. -/

namespace Sys2Proof.Machine

/-- `(x + 1) mod 256` (R110). -/
def incByte (x : Byte) : Byte := x + 1

/-- `(x - 1) mod 256` (R111). -/
def decByte (x : Byte) : Byte := x - 1

/-- `(pc + 2) mod 65536`, with `pc` the address after the opcode byte of a `CALL nn` (R140; the wrap is the spec's
decision D12). -/
def returnAddress (pc : Word) : Word := pc + 2

end Sys2Proof.Machine
end

