-- ==== Sys2Proof/Syntax.lean ====
section
/-! DEFINITION. The instructions of the CORE ISA: the ten kinds of 30_encoding.md R69, one constructor per row of
spec/opcode_table.json, and the operand bytes that stand after an opcode in memory.

A kind has no operand field, because 40_step_cycle.md R82 makes decoding read "nothing but `op`": a handler fetches its
operand bytes itself while it executes (R83), and `CALL nn` fetches them after its pushes (R140), so an operand read
earlier could be another value (log 6). -/

namespace Sys2Proof

/-- The ten instruction kinds (R65, R69). -/
inductive Instr where
  | ldHLnn
  | ldAn
  | incA
  | decA
  | jpHL
  | pushHL
  | popHL
  | callnn
  | ret
  /-- Every byte value outside the opcode map (R67); it keeps its byte, which the step reports (R153). -/
  | unmapped (op : Byte)
  deriving DecidableEq, Repr

/-- The three instruction formats (R61). -/
inductive Format where
  /-- opcode only -/
  | f0
  /-- opcode and one 8-bit immediate -/
  | f1
  /-- opcode and one 16-bit immediate, high byte first -/
  | f2
  deriving DecidableEq, Repr

/-- What stands after the opcode (R60 to R63). -/
inductive Operand where
  | none
  | imm8 (n : Byte)
  | imm16 (nn : Word)
  deriving DecidableEq, Repr

/-- A whole instruction as it stands in an image: a kind and its operand (R60, R72). -/
structure Coded where
  instr   : Instr
  operand : Operand
  deriving DecidableEq, Repr

end Sys2Proof
end

