-- ==== Sys2Proof/Machine/Encoding.lean ====
section
/-! DEFINITION. The encoding tables of 30_encoding.md and the byte and word helpers they and the machine share
(00_scope.md R6, 42_inc_dec.md R113). -/

namespace Sys2Proof.Machine

/-- `v >> 8`: the high byte of a word (R113). -/
def hiByte (v : Word) : Byte := v.extractLsb' 8 8

/-- `v & 0xFF`: the low byte of a word (R113). -/
def loByte (v : Word) : Byte := v.extractLsb' 0 8

/-- `{h, l} = (h << 8) | l` (R6, R113). -/
def joinBytes (h l : Byte) : Word := h ++ l

end Sys2Proof.Machine

namespace Sys2Proof

/-- The nine mapped opcodes, in R65's order. -/
def opcodeTable : List (Byte × Instr) :=
  [ (0x21#8, .ldHLnn), (0x3E#8, .ldAn), (0x3C#8, .incA), (0x3D#8, .decA), (0xE9#8, .jpHL), (0xE5#8, .pushHL),
    (0xE1#8, .popHL), (0xCD#8, .callnn), (0xC9#8, .ret) ]

/-- The opcode byte of each kind (R65). -/
def Instr.opcode : Instr → Byte
  | .ldHLnn      => 0x21#8
  | .ldAn        => 0x3E#8
  | .incA        => 0x3C#8
  | .decA        => 0x3D#8
  | .jpHL        => 0xE9#8
  | .pushHL      => 0xE5#8
  | .popHL       => 0xE1#8
  | .callnn      => 0xCD#8
  | .ret         => 0xC9#8
  | .unmapped op => op

/-- The format of each kind (R65's column; R67 for an unmapped opcode). -/
def Instr.format : Instr → Format
  | .ldHLnn     => .f2
  | .ldAn       => .f1
  | .incA       => .f0
  | .decA       => .f0
  | .jpHL       => .f0
  | .pushHL     => .f0
  | .popHL      => .f0
  | .callnn     => .f2
  | .ret        => .f0
  | .unmapped _ => .f0

/-- The length in bytes of each format (R61). -/
def Format.length : Format → Nat
  | .f0 => 1
  | .f1 => 2
  | .f2 => 3

/-- The format an operand belongs to (R61). -/
def Operand.format : Operand → Format
  | .none    => .f0
  | .imm8 _  => .f1
  | .imm16 _ => .f2

/-- The byte values R67 lists as unmapped, as inclusive ranges. -/
def unmappedRanges : List (Nat × Nat) :=
  [ (0x00, 0x20), (0x22, 0x3B), (0x3F, 0xC8), (0xCA, 0xCC), (0xCE, 0xE0), (0xE2, 0xE4), (0xE6, 0xE8), (0xEA, 0xFF) ]

/-- Whether R67's ranges hold a byte value. -/
def isUnmapped (op : Byte) : Bool :=
  unmappedRanges.any fun r => decide (r.1 ≤ op.toNat) && decide (op.toNat ≤ r.2)

end Sys2Proof
end

