-- ==== Sys2Proof/WellFormed.lean ====
section
/-! DEFINITION. Which terms stand for an instruction of the CORE ISA. -/

namespace Sys2Proof

/-- `unmapped op` stands for an instruction only when `op` is one of R67's 247 values: a mapped byte has its own
constructor. -/
def Instr.wf : Instr → Bool
  | .ldHLnn      => true
  | .ldAn        => true
  | .incA        => true
  | .decA        => true
  | .jpHL        => true
  | .pushHL      => true
  | .popHL       => true
  | .callnn      => true
  | .ret         => true
  | .unmapped op => isUnmapped op

/-- A whole instruction is well-formed when its kind is and its operand has the kind's format (R60, R61). -/
def Coded.wf (c : Coded) : Bool :=
  c.instr.wf && decide (c.operand.format = c.instr.format)

end Sys2Proof
end

