-- ==== Sys2Proof/Decode.lean ====
section
/-! DEFINITION. Decoding and encoding (30_encoding.md R60 to R69, 40_step_cycle.md R82).

The machine decodes the opcode byte alone (`decodeOpcode`, R82). `decode` reads a whole instruction, opcode and operand,
from the bytes of an image; it is total and rejects by name. `encode` is its inverse. -/

namespace Sys2Proof

open Sys2Proof.Machine

/-- `decode(op)` of R82: the nine rows of R65 on all eight bits, and `UNMAPPED` for the 247 other values. -/
def decodeOpcode (op : Byte) : Instr :=
  match opcodeTable.lookup op with
  | some i => i
  | none   => .unmapped op

/-- Why a list of bytes holds no whole instruction. -/
inductive DecodeError where
  /-- There is no opcode byte. -/
  | noOpcode
  /-- The opcode byte selects a kind whose operand bytes are not all there. -/
  | operandMissing (i : Instr)
  deriving DecidableEq, Repr

/-- The operand of a format, read from the bytes after the opcode, and the bytes after it (R61 to R63): the 16-bit
immediate has its high byte first. -/
def takeOperand : Format → List Byte → Option (Operand × List Byte)
  | .f0, bs           => some (.none, bs)
  | .f1, n :: bs      => some (.imm8 n, bs)
  | .f2, h :: l :: bs => some (.imm16 (joinBytes h l), bs)
  | .f1, []           => none
  | .f2, []           => none
  | .f2, [_]          => none

/-- A whole instruction from bytes in address order, and the bytes after it (R60). -/
def decode : List Byte → Except DecodeError (Coded × List Byte)
  | []       => .error .noOpcode
  | op :: bs =>
    match takeOperand (decodeOpcode op).format bs with
    | some (o, rest) => .ok (⟨decodeOpcode op, o⟩, rest)
    | none           => .error (.operandMissing (decodeOpcode op))

/-- The bytes of an operand in address order (R61 to R63). -/
def encodeOperand : Operand → List Byte
  | .none     => []
  | .imm8 n   => [n]
  | .imm16 nn => [hiByte nn, loByte nn]

/-- The bytes of a whole instruction in address order (R60, R61). -/
def encode (c : Coded) : List Byte :=
  c.instr.opcode :: encodeOperand c.operand

/-- The first three bytes (the longest instruction, R64) of an instruction whose bits are `w`, numbered from the least
significant bit of its first byte, the bits from `nbits` up being 0. -/
def tableBytes (nbits w : Nat) : List Byte :=
  let v := w % 2 ^ nbits
  [BitVec.ofNat 8 v, BitVec.ofNat 8 (v / 2 ^ 8), BitVec.ofNat 8 (v / 2 ^ 16)]

/-- The instruction kind the decoder reads from the bits of an opcode-table row. -/
def decodeTableWord (nbits w : Nat) : Option Instr :=
  match decode (tableBytes nbits w) with
  | .ok (c, _) => some c.instr
  | .error _   => none

end Sys2Proof
end

