-- ==== Sys2Proof/Config.lean ====
section
/-! DEFINITION. What an implementation of the engine fixes (00_scope.md R5): the parameter `MEM_SIZE`, and the values
`State.reset` takes where the spec leaves the reset value unspecified (10_state.md R34). -/

namespace Sys2Proof

/-- The two values R5 allows for the parameter `MEM_SIZE`. -/
inductive MemSize where
  | cells65535
  | cells65536
  deriving DecidableEq, Repr

/-- `MEM_SIZE` as a number of cells (R5, R40). -/
def MemSize.cells : MemSize → Nat
  | .cells65535 => 65535
  | .cells65536 => 65536

/-- The memory size of `State.reset`. R5 leaves it open; R5's vectors use 65535. DESIGN CHOICE (log 2), unsafe for a
claim about `State.reset` alone: every other claim ranges over both sizes. -/
def Config.memSize : MemSize := .cells65535

/-- `HL` in `State.reset`. R34: "unspecified: any 16-bit value; zero is one permitted value".
DESIGN CHOICE (log 3), unsafe. -/
def Config.resetHL : Word := 0x0000#16

/-- `A` in `State.reset`. R34: "unspecified: any 8-bit value; zero is one permitted value".
DESIGN CHOICE (log 3), unsafe. -/
def Config.resetA : Byte := 0x00#8

/-- What a memory cell that is not listed reads as. R34 leaves the reset content of memory unspecified.
DESIGN CHOICE (log 4), unsafe for runs from `State.reset`. -/
def Config.unlistedByte : Byte := 0x00#8

end Sys2Proof
end

