-- ==== Sys2Proof/Machine/State.lean ====
section
/-! DEFINITION. The whole state of the machine (10_state.md R20), the reasons a step stops, and the state at creation
(R34, R180). -/

namespace Sys2Proof.Machine

/-- `MEM` (20_memory.md R40): a number of cells, and the listed ones as (address, byte) pairs; an unlisted cell reads as
`Config.unlistedByte`. Because every cell can be listed, every content R34 allows is some `Memory`. The size is
the domain of `MEM`; nothing changes it (log 1). -/
structure Memory where
  size  : MemSize
  cells : List Host.Cell
  deriving DecidableEq, Repr

/-- The pair (register file, memory) of R20, and nothing else: no flag, no control register, no latch (R28 to R31). -/
structure State where
  /-- `PC` (R21) -/
  pc  : Word
  /-- `SP` (R23) -/
  sp  : Word
  /-- `HL` (R24) -/
  hl  : Word
  /-- `A` (R25) -/
  a   : Byte
  /-- `MEM` (R40) -/
  mem : Memory
  deriving DecidableEq, Repr

/-- The kind of a memory access (R151). -/
inductive AccessKind where
  | read
  | write
  deriving DecidableEq, Repr

/-- Why the machine stops. -/
inductive Fault where
  /-- `OutOfRange(addr, kind)` (R151): raised by `memRead` and `memWrite` and by nothing else, when the address is at or
  above `MEM_SIZE`. `after` is the state the step leaves (R157): the effects before the faulting access stay. It is the
  spec's own outcome; the state left rests on the spec's decision D6 (log 5), which is unsafe if the hardware rolls back. -/
  | outOfRange (addr : Word) (kind : AccessKind) (after : State)
  deriving DecidableEq, Repr

/-- Why an instruction has no meaning in this model. Every kind has one, so nothing raises a refusal. -/
inductive Refusal where
  /-- Raised by the dispatcher alone, for a kind not modelled yet: none is left. Safe. -/
  | notModelled (mnemonic : String)
  deriving DecidableEq, Repr

/-- What a step of this machine answers. -/
abbrev Outcome := Host.Outcome State Fault Refusal

/-- The state at creation (R34, R180): `PC = 0`, `SP = MEM_SIZE - 1`, and any `HL`, any `A` and any memory content,
which R34 leaves unspecified. -/
def State.created (size : MemSize) (hl : Word) (a : Byte) (cells : List Host.Cell) : State where
  pc  := 0x0000#16
  sp  := BitVec.ofNat 16 (size.cells - 1)
  hl  := hl
  a   := a
  mem := ⟨size, cells⟩

/-- The machine right after reset: the created state with the values Config names for what R34 leaves open (log 2,
log 3, log 4), memory with nothing listed. -/
def State.reset : State :=
  State.created Config.memSize Config.resetHL Config.resetA []

end Sys2Proof.Machine
end

