-- ==== Sys2Proof/Machine/Ops.lean ====
section
/-! DEFINITION. The named operations over registers and memory: register writes, the memory port of 20_memory.md, taking
`OutOfRange` (60_exceptions.md R151, R156, R157), the fetch of 40_step_cycle.md R81 and the stack primitives of
44_stack.md R130 and R131.

There is no return from an exception to model: R159. -/

namespace Sys2Proof.Machine

/-! ### Registers (R21 to R26): one home and one write each, all unconditional (R33) -/

def State.setPC (s : State) (v : Word) : State := { s with pc := v }
def State.setSP (s : State) (v : Word) : State := { s with sp := v }
def State.setHL (s : State) (v : Word) : State := { s with hl := v }
def State.setA (s : State) (v : Byte) : State := { s with a := v }
def State.setMem (s : State) (m : Memory) : State := { s with mem := m }

/-! ### Memory cells -/

/-- The byte listed for an address, or what an unlisted one reads as. -/
def lookupCell : List Host.Cell → Nat → Byte
  | [], _ => Config.unlistedByte
  | (k, v) :: rest, addr => if k = addr then v else lookupCell rest addr

/-- Lists a byte at its place in the rising order of addresses, in place of an earlier entry for the address. -/
def insertCell : List Host.Cell → Nat → Byte → List Host.Cell
  | [], addr, v => [(addr, v)]
  | (k, w) :: rest, addr, v =>
    if addr < k then (addr, v) :: (k, w) :: rest
    else if k = addr then (addr, v) :: rest
    else (k, w) :: insertCell rest addr v

/-- Unlists an address. -/
def eraseCell (cells : List Host.Cell) (addr : Nat) : List Host.Cell :=
  cells.filter fun c => decide (c.1 ≠ addr)

/-- The list after a store, in canonical form. -/
def storeCell (cells : List Host.Cell) (addr : Nat) (v : Byte) : List Host.Cell :=
  if v = Config.unlistedByte then eraseCell cells addr else insertCell cells addr v

/-- The canonical form: addresses strictly rising, every one a cell of the memory, no entry equal to what an unlisted
address reads as. -/
abbrev Memory.wf (m : Memory) : Prop :=
  m.cells.Pairwise (fun c d => c.1 < d.1) ∧
    ∀ c ∈ m.cells, c.1 < m.size.cells ∧ c.2 ≠ Config.unlistedByte

/-- Address validity (R41): `addr < MEM_SIZE`. -/
abbrev Memory.valid (m : Memory) (addr : Nat) : Prop := addr < m.size.cells

/-- The content of a cell, without a check. -/
def Memory.get (m : Memory) (addr : Nat) : Byte := lookupCell m.cells addr

/-- Memory with one cell changed, without a check. -/
def Memory.set (m : Memory) (addr : Nat) (v : Byte) : Memory :=
  { m with cells := storeCell m.cells addr v }

/-- The port's `read(address)` (R42, R57): the byte, or none for `OutOfRange`. -/
def Memory.read (m : Memory) (addr : Nat) : Option Byte :=
  if m.valid addr then some (m.get addr) else none

/-- The port's `write(address, value)` (R43, R57): the memory after it, or none for `OutOfRange`. -/
def Memory.write (m : Memory) (addr : Nat) (v : Byte) : Option Memory :=
  if m.valid addr then some (m.set addr v) else none

/-- Address validity (R41) of a 16-bit address in a state. -/
abbrev State.valid (s : State) (addr : Word) : Prop := s.mem.valid addr.toNat

/-- `MEM[addr]` of the rules. -/
def State.byteAt (s : State) (addr : Word) : Byte := s.mem.get addr.toNat

/-! ### Runs of pseudocode: a value and a state, or the fault that ended the step (R7, R83) -/

/-- What a statement of pseudocode answers. -/
inductive Ran (α : Type) where
  | ok (v : α) (s : State)
  | stop (f : Fault)

/-- The next statement runs only if the one before it did not raise (R7: "`raise` ends the step at once"). -/
def Ran.andThen {α β : Type} (r : Ran α) (next : α → State → Ran β) : Ran β :=
  match r with
  | .ok v s => next v s
  | .stop f => .stop f

/-- The end of a meaning (R83). -/
def Ran.toOutcome (r : Ran Unit) : Outcome :=
  match r with
  | .ok _ s => .next s
  | .stop f => .fault f

/-- Taking `OutOfRange` (R151, R156, R157): the step ends here and the error goes to the caller of `step`; nothing is
saved, no vector is read, the state is left as the statements before this access made it. -/
def raiseOutOfRange {α : Type} (addr : Word) (kind : AccessKind) (s : State) : Ran α :=
  .stop (.outOfRange addr kind s)

/-- `MemRead(addr, 1)` (R42). -/
def memRead (addr : Word) (s : State) : Ran Byte :=
  match s.mem.read addr.toNat with
  | some b => .ok b s
  | none   => raiseOutOfRange addr .read s

/-- `MemWrite(addr, 1, v)` (R43). -/
def memWrite (addr : Word) (v : Byte) (s : State) : Ran Unit :=
  match s.mem.write addr.toNat v with
  | some m => .ok () (s.setMem m)
  | none   => raiseOutOfRange addr .write s

/-- `Fetch8()` (R81): the read first, the increment second. -/
def fetch8 (s : State) : Ran Byte :=
  (memRead s.pc s).andThen fun b t => .ok b (t.setPC (t.pc + 1))

/-- `Push8(v)` (R130): the decrement first, the write at the new `SP` second. -/
def push8 (v : Byte) (s : State) : Ran Unit :=
  memWrite (s.sp - 1) v (s.setSP (s.sp - 1))

/-- `Push16(v)` (R130): the high byte first. -/
def push16 (v : Word) (s : State) : Ran Unit :=
  (push8 (hiByte v) s).andThen fun _ t => push8 (loByte v) t

/-- `Pop8()` (R131): the read first, the increment second. -/
def pop8 (s : State) : Ran Byte :=
  (memRead s.sp s).andThen fun b t => .ok b (t.setSP (t.sp + 1))

/-- `Pop16()` (R131): the low byte first. -/
def pop16 (s : State) : Ran Word :=
  (pop8 s).andThen fun low t => (pop8 t).andThen fun high u => .ok (joinBytes high low) u

/-- The memory after a list of bytes is stored from an address on, addresses taken `mod 65536`; a byte whose address is
no cell is left out. Not an operation of the machine: `State.withFetchWord` places an instruction with it (log 8). -/
def placeBytes : List Byte → Word → Memory → Memory
  | [], _, m => m
  | b :: rest, addr, m =>
    placeBytes rest (addr + 1) (if m.valid addr.toNat then m.set addr.toNat b else m)

end Sys2Proof.Machine
end

