-- ==== Sys2Proof/Machine/Arith.lean ====
section
/-! DEFINITION. Increment and decrement of the accumulator (42_inc_dec.md). -/

namespace Sys2Proof.Machine

/-- `INC A` (R110). -/
def execIncA (s : State) : Outcome := .next (s.setA (incByte s.a))

/-- `DEC A` (R111). -/
def execDecA (s : State) : Outcome := .next (s.setA (decByte s.a))

end Sys2Proof.Machine
end

