-- ==== Sys2Proof/Machine/Jump.lean ====
section
/-! DEFINITION. The indirect jump (43_jump.md). -/

namespace Sys2Proof.Machine

/-- `JP (HL)` (R120): the target is not checked and no memory is read. -/
def execJpHL (s : State) : Outcome := .next (s.setPC s.hl)

end Sys2Proof.Machine
end

