-- ==== Sys2Proof/Machine/Operands.lean ====
section
/-! DEFINITION. The operand forms of the CORE ISA: the two immediates fetched from the instruction stream (30_encoding.md
R62, R63), and the implicit views `H` and `L` of `HL` (10_state.md R24). -/

namespace Sys2Proof.Machine

/-- `x[H]` = `HL[15:8]` (R24): a read-only view. -/
def State.h (s : State) : Byte := hiByte s.hl

/-- `x[L]` = `HL[7:0]` (R24): a read-only view. -/
def State.l (s : State) : Byte := loByte s.hl

/-- The 8-bit immediate `n` of format F1 (R62): one `Fetch8`. -/
def fetchImm8 (s : State) : Ran Byte := fetch8 s

/-- The 16-bit immediate `nn` of format F2 (R63): two `Fetch8`, the high byte first in memory (R46). -/
def fetchImm16 (s : State) : Ran Word :=
  (fetch8 s).andThen fun b1 t => (fetch8 t).andThen fun b2 u => .ok (joinBytes b1 b2) u

/-- The readable bytes from an address on, at most `n`, addresses taken `mod 65536`, up to the first invalid one: what
`decode` is given of the code at an address. -/
def codeAt (m : Memory) : Nat → Word → List Byte
  | 0, _ => []
  | n + 1, addr =>
    match m.read addr.toNat with
    | some b => b :: codeAt m n (addr + 1)
    | none   => []

end Sys2Proof.Machine
end

