-- ==== Sys2Proof/Machine/Linkage.lean ====
section
/-! DEFINITION. Subroutine linkage (45_call_return.md). -/

namespace Sys2Proof.Machine

/-- `CALL nn` (R140): the return address is pushed before the operand bytes are read, so a push that lands on them
changes the target. -/
def execCallnn (s : State) : Outcome :=
  ((push16 (returnAddress s.pc) s).andThen fun _ t =>
    (fetchImm16 t).andThen fun nn u => .ok () (u.setPC nn)).toOutcome

/-- `RET` (R141). -/
def execRet (s : State) : Outcome :=
  ((pop16 s).andThen fun v t => .ok () (t.setPC v)).toOutcome

end Sys2Proof.Machine
end

