-- ==== Sys2Proof/Machine/Load.lean ====
section
/-! DEFINITION. Immediate loads (41_load_immediate.md). In every meaning of the machine the state given is the one after
the opcode fetch, so `pc` is the address after the opcode byte, as in the rules' pseudocode. -/

namespace Sys2Proof.Machine

/-- `LD HL,nn` (R100). -/
def execLdHLnn (s : State) : Outcome :=
  ((fetchImm16 s).andThen fun nn t => .ok () (t.setHL nn)).toOutcome

/-- `LD A,n` (R101). -/
def execLdAn (s : State) : Outcome :=
  ((fetchImm8 s).andThen fun n t => .ok () (t.setA n)).toOutcome

end Sys2Proof.Machine
end

