-- ==== Sys2Proof/Machine/Stack.lean ====
section
/-! DEFINITION. The stack instructions (44_stack.md). -/

namespace Sys2Proof.Machine

/-- `PUSH HL` (R132). -/
def execPushHL (s : State) : Outcome := (push16 s.hl s).toOutcome

/-- `POP HL` (R133). -/
def execPopHL (s : State) : Outcome :=
  ((pop16 s).andThen fun v t => .ok () (t.setHL v)).toOutcome

end Sys2Proof.Machine
end

