-- ==== Sys2Proof/Machine/Unmapped.lean ====
section
/-! DEFINITION. The unmapped opcodes (40_step_cycle.md). -/

namespace Sys2Proof.Machine

/-- `UNMAPPED` (R85): nothing beyond the `PC` advance of the opcode fetch. Its report is `reportOf` in
Machine/Outcome.lean (R153). -/
def execUnmapped (_op : Byte) (s : State) : Outcome := .next s

end Sys2Proof.Machine
end

