-- ==== Sys2Proof/Machine/Dispatch.lean ====
section
/-! DEFINITION. `execute(kind)` of 40_step_cycle.md R83, in the state after the opcode fetch. -/

namespace Sys2Proof.Machine

def exec (i : Instr) (s : State) : Host.Outcome State Fault Refusal :=
  match i with
  | .ldHLnn => Sys2Proof.Machine.execLdHLnn s
  | .ldAn => Sys2Proof.Machine.execLdAn s
  | .incA => Sys2Proof.Machine.execIncA s
  | .decA => Sys2Proof.Machine.execDecA s
  | .jpHL => Sys2Proof.Machine.execJpHL s
  | .pushHL => Sys2Proof.Machine.execPushHL s
  | .popHL => Sys2Proof.Machine.execPopHL s
  | .callnn => Sys2Proof.Machine.execCallnn s
  | .ret => Sys2Proof.Machine.execRet s
  | .unmapped op => Sys2Proof.Machine.execUnmapped op s

end Sys2Proof.Machine
end

