-- ==== Sys2Proof/Machine/Step.lean ====
section
/-! DEFINITION. The step (40_step_cycle.md R80), and the placing of an instruction where the next step fetches it. -/

namespace Sys2Proof.Machine

/-- `step` (R80): fetch the opcode byte, decode it, execute the kind it selects. -/
def step (s : State) : Host.Outcome State Fault Refusal :=
  match fetch8 s with
  | .ok op t => exec (decodeOpcode op) t
  | .stop f  => .fault f

/-- `s` with the instruction of bits `w` placed at `PC`, where the next step fetches: it stands for the host's load of an
image (R182, log 8). -/
def State.withFetchWord (s : State) (nbits w : Nat) : State :=
  s.setMem (placeBytes (tableBytes nbits w) s.pc s.mem)

end Sys2Proof.Machine
end

