-- ==== Sys2Proof/Machine/Outcome.lean ====
section
/-! DEFINITION. The outcome of a step as the spec reports it to the host (40_step_cycle.md R84, 60_exceptions.md R151,
R153, R154). `Host.Outcome` has no place for the report of an unmapped opcode beside a next state, and State holds no
outcome (10_state.md R34), so it is a function of the state the step begins in (log 7). -/

namespace Sys2Proof.Machine

/-- The three outcomes of R84. -/
inductive StepOutcome where
  | ok
  | okUnknown (op : Byte) (addr : Word)
  | fault (addr : Word) (kind : AccessKind)
  deriving DecidableEq, Repr

/-- The outcome of an instruction at `a` that ran to its end (R84): only `UNMAPPED` makes a report (R153). -/
def reportOf (i : Instr) (a : Word) : StepOutcome :=
  match i with
  | .ldHLnn      => .ok
  | .ldAn        => .ok
  | .incA        => .ok
  | .decA        => .ok
  | .jpHL        => .ok
  | .pushHL      => .ok
  | .popHL       => .ok
  | .callnn      => .ok
  | .ret         => .ok
  | .unmapped op => .okUnknown op a

/-- The outcome of `step` and the state it leaves (R84, R90); none only where `step` refuses, which it never does. -/
def stepOutcome (s : State) : Option (StepOutcome × State) :=
  match step s with
  | .next t                        => some (reportOf (decodeOpcode (s.byteAt s.pc)) s.pc, t)
  | .fault (.outOfRange addr kind t) => some (.fault addr kind, t)
  | .refused _                     => none

/-- The spec's own numbers for the outcomes (R154, decision D8); nothing depends on them. -/
def StepOutcome.code : StepOutcome → Nat
  | .ok            => 0
  | .fault _ _     => 1
  | .okUnknown _ _ => 2

/-- The spec's own numbers for the access kinds (R154). -/
def AccessKind.code : AccessKind → Nat
  | .read  => 0
  | .write => 1

end Sys2Proof.Machine
end

