-- ==== Sys2Proof/Machine/Session.lean ====
section
/-! DEFINITION. The host interface (70_reset_and_hazards.md R181 to R185, 10_state.md R33, 60_exceptions.md R158): what the
host may ask of one machine, when, and what it gets back. It stands over State and adds nothing to it: the phase of a run
is the host's, not the machine's (R29, R158). What the spec gives no meaning to is refused (log 9). -/

namespace Sys2Proof.Machine

/-- Where a run stands (R183, R185). -/
inductive Phase where
  /-- created, no step made yet -/
  | boot
  /-- at least one step made, none faulted -/
  | running
  /-- a step faulted: the run is over (R158) -/
  | failed
  /-- discarded: nothing persists (R36) -/
  | discarded
  deriving DecidableEq, Repr

/-- One machine and where its run stands. -/
structure Session where
  state : State
  phase : Phase
  deriving DecidableEq, Repr

/-- The rows of R183 after `create`. Addresses and values are numbers, as a host gives them: an address is checked
(R33), a value is stored modulo the width (D14, D22). -/
inductive HostRequest where
  | writeCell (addr value : Nat)
  | setPC (value : Nat)
  | setSP (value : Nat)
  | setHL (value : Nat)
  | setA (value : Nat)
  | step
  | readPC
  | readSP
  | readHL
  | readH
  | readL
  | readA
  | readCell (addr : Nat)
  | discard
  deriving DecidableEq, Repr

/-- What the host gets back (R183, last column). -/
inductive HostAnswer where
  | done
  | word (v : Word)
  | byte (v : Byte)
  | outcome (o : StepOutcome)
  | outOfRange (addr : Nat) (kind : AccessKind)
  deriving DecidableEq, Repr

/-- What the spec gives no meaning to. -/
inductive HostRefusal where
  /-- a register or memory write once the run has begun (R183) -/
  | writeDuringRun
  /-- a step after a fault (R158) -/
  | stepAfterFault
  /-- anything after the machine is discarded (R36) -/
  | afterDiscard
  /-- the step itself was refused; it never is (R90) -/
  | stepRefused
  deriving DecidableEq, Repr

/-- Creation (R180): once per run. -/
def Session.create (size : MemSize) (hl : Word) (a : Byte) (cells : List Host.Cell) : Session :=
  ⟨State.created size hl a cells, .boot⟩

/-- A write of the host, allowed before the first step only (R33, R183). -/
def hostWrite (c : Session) (s : State) : Except HostRefusal (Session × HostAnswer) :=
  match c.phase with
  | .boot      => .ok (⟨s, .boot⟩, .done)
  | .running   => .error .writeDuringRun
  | .failed    => .error .writeDuringRun
  | .discarded => .error .afterDiscard

/-- A read of the host, allowed between steps and of the last state of a run, without effect (R33, R167). -/
def hostRead (c : Session) (v : HostAnswer) : Except HostRefusal (Session × HostAnswer) :=
  match c.phase with
  | .boot      => .ok (c, v)
  | .running   => .ok (c, v)
  | .failed    => .ok (c, v)
  | .discarded => .error .afterDiscard

/-- The phase a step leaves (R158, R185). -/
def phaseAfter (o : StepOutcome) : Phase :=
  match o with
  | .ok            => .running
  | .okUnknown _ _ => .running
  | .fault _ _     => .failed

/-- `step` as the host asks for it (R183, R158). -/
def hostStep (c : Session) : Except HostRefusal (Session × HostAnswer) :=
  match c.phase with
  | .failed    => .error .stepAfterFault
  | .discarded => .error .afterDiscard
  | .boot | .running =>
    match stepOutcome c.state with
    | some (o, t) => .ok (⟨t, phaseAfter o⟩, .outcome o)
    | none        => .error .stepRefused

/-- The host's write of one cell, by the memory port of R43 (R33, R182): an address at or above `MEM_SIZE` is answered
`OutOfRange` and nothing changes. -/
def hostWriteCell (c : Session) (addr value : Nat) : Except HostRefusal (Session × HostAnswer) :=
  match c.state.mem.write addr (BitVec.ofNat 8 value) with
  | some m => hostWrite c (c.state.setMem m)
  | none   =>
    match hostWrite c c.state with
    | .ok (c', _) => .ok (c', .outOfRange addr .write)
    | .error e    => .error e

/-- The end of a run by the host (R183, R36). -/
def hostDiscard (c : Session) : Except HostRefusal (Session × HostAnswer) :=
  match c.phase with
  | .boot      => .ok (⟨c.state, .discarded⟩, .done)
  | .running   => .ok (⟨c.state, .discarded⟩, .done)
  | .failed    => .ok (⟨c.state, .discarded⟩, .done)
  | .discarded => .error .afterDiscard

/-- One request of the host (R183). -/
def serve (c : Session) (r : HostRequest) : Except HostRefusal (Session × HostAnswer) :=
  match r with
  | .writeCell addr v => hostWriteCell c addr v
  | .setPC v          => hostWrite c (c.state.setPC (BitVec.ofNat 16 v))
  | .setSP v          => hostWrite c (c.state.setSP (BitVec.ofNat 16 v))
  | .setHL v          => hostWrite c (c.state.setHL (BitVec.ofNat 16 v))
  | .setA v           => hostWrite c (c.state.setA (BitVec.ofNat 8 v))
  | .step             => hostStep c
  | .readPC           => hostRead c (.word c.state.pc)
  | .readSP           => hostRead c (.word c.state.sp)
  | .readHL           => hostRead c (.word c.state.hl)
  | .readH            => hostRead c (.byte c.state.h)
  | .readL            => hostRead c (.byte c.state.l)
  | .readA            => hostRead c (.byte c.state.a)
  | .readCell addr    =>
    match c.state.mem.read addr with
    | some b => hostRead c (.byte b)
    | none   => hostRead c (.outOfRange addr .read)
  | .discard          => hostDiscard c

/-- Loading one piece of an image (R182): its bytes are written in address order, one cell each, up to the first that is
not done; the cells written before it stay (log 9). -/
def loadPiece (c : Session) (base : Nat) : List Byte → Except HostRefusal (Session × HostAnswer)
  | [] => .ok (c, .done)
  | b :: rest =>
    match serve c (.writeCell base b.toNat) with
    | .ok (c', .done) => loadPiece c' (base + 1) rest
    | other           => other

end Sys2Proof.Machine
end

