-- ==== Sys2Proof/Machine/Accesses.lean ====
section
/-! DEFINITION. The memory accesses of a step, in order (20_memory.md R59, 60_exceptions.md R152): the tables claims
compare `step` with. `step` does not use them. -/

namespace Sys2Proof.Machine

/-- The accesses after the opcode fetch of the instruction at `a`, `s` being `SP` when the step begins (R152). -/
def accessesAfterOpcode (i : Instr) (a s : Word) : List (AccessKind × Word) :=
  match i with
  | .ldHLnn     => [(.read, a + 1), (.read, a + 2)]
  | .ldAn       => [(.read, a + 1)]
  | .incA       => []
  | .decA       => []
  | .jpHL       => []
  | .pushHL     => [(.write, s - 1), (.write, s - 2)]
  | .popHL      => [(.read, s), (.read, s + 1)]
  | .callnn     => [(.write, s - 1), (.write, s - 2), (.read, a + 1), (.read, a + 2)]
  | .ret        => [(.read, s), (.read, s + 1)]
  | .unmapped _ => []

/-- Every access of a step: the opcode fetch first (R152's first row). -/
def stepAccesses (i : Instr) (a s : Word) : List (AccessKind × Word) :=
  (.read, a) :: accessesAfterOpcode i a s

/-- The addresses a step stores to, if it does not fault: the stack bytes of `PUSH HL` and `CALL nn` (R56). -/
def storedAddresses (i : Instr) (s : Word) : List Word :=
  match i with
  | .ldHLnn     => []
  | .ldAn       => []
  | .incA       => []
  | .decA       => []
  | .jpHL       => []
  | .pushHL     => [s - 1, s - 2]
  | .popHL      => []
  | .callnn     => [s - 1, s - 2]
  | .ret        => []
  | .unmapped _ => []

/-- The first access whose address is no cell (R155: "the earlier access wins"). -/
def firstInvalid (m : Memory) (accesses : List (AccessKind × Word)) : Option (AccessKind × Word) :=
  accesses.find? fun x => !decide (m.valid x.2.toNat)

end Sys2Proof.Machine
end

