-- ==== Sys2Proof/Safety.lean ====
section
/-! DEFINITION. The terms claims use: what a safe run is, what it means to leave memory alone, and the invariant of the
machine's data. -/

namespace Sys2Proof

open Sys2Proof.Machine

/-- `k` steps from `s` end in `t` without a fault (70_reset_and_hazards.md R185 (a)). -/
def RunsTo (k : Nat) (s t : State) : Prop := core.run k s = .next t

/-- `k` steps from `s` make no fault (60_exceptions.md R158). -/
def Safe (k : Nat) (s : State) : Prop := ∃ t, RunsTo k s t

/-- A kind executed `k` times in a row, opcode fetches aside (42_inc_dec.md R112). -/
def execTimes (i : Instr) : Nat → State → Outcome
  | 0, s => .next s
  | k + 1, s =>
    match exec i s with
    | .next t    => execTimes i k t
    | .fault f   => .fault f
    | .refused r => .refused r

/-- Memory is in its canonical form: equal memories are equal data (log 1, log 4). -/
def Canonical (s : State) : Prop := s.mem.wf

/-- Every byte of memory outside the listed addresses reads in `t` as in `s`, and no cell appears or goes. -/
def SameMemoryBut (addrs : List Word) (s t : State) : Prop :=
  t.mem.size = s.mem.size ∧
    ∀ n : Nat, (∀ x ∈ addrs, x.toNat ≠ n) → t.mem.get n = s.mem.get n

/-- Every access of a list is at an address below `MEM_SIZE` (20_memory.md R41). -/
def AllValid (m : Memory) (accesses : List (AccessKind × Word)) : Prop :=
  ∀ x ∈ accesses, m.valid x.2.toNat

/-- The bytes of a whole instruction stand in memory from `a` on, every one at a valid address. -/
def StandsAt (c : Coded) (a : Word) (m : Memory) : Prop :=
  codeAt m (encode c).length a = encode c

/-- The host is answered each of R183's reads, and a read changes nothing (10_state.md R33): every register, the halves of
`HL`, every cell, and `OutOfRange` for an address that is no cell. -/
def ReadsAnswer (c : Session) : Prop :=
  serve c .readPC = .ok (c, .word c.state.pc) ∧ serve c .readSP = .ok (c, .word c.state.sp) ∧
  serve c .readHL = .ok (c, .word c.state.hl) ∧ serve c .readH = .ok (c, .byte (hiByte c.state.hl)) ∧
  serve c .readL = .ok (c, .byte (loByte c.state.hl)) ∧ serve c .readA = .ok (c, .byte c.state.a) ∧
  ∀ n : Nat,
    (n < c.state.mem.size.cells → serve c (.readCell n) = .ok (c, .byte (c.state.mem.get n))) ∧
    (¬ n < c.state.mem.size.cells → serve c (.readCell n) = .ok (c, .outOfRange n .read))

end Sys2Proof
end

