-- ==== Sys2Proof/Certificates/Slice0/Obligations.lean ====
section
/-! DEFINITION. The statements for the provers. In a statement about `exec`, the state is the one after the opcode fetch,
as in the rules' pseudocode: with `a` the address of the opcode byte, `s.pc` is `a + 1`. In a statement about `step`,
`s.pc` is `a`. -/

open Sys2Proof Sys2Proof.Machine

/-! ### Encoding -/

/-- No bit of an encoding is dropped: the bytes of a well-formed instruction, whatever follows them, decode to it
(30_encoding.md sections 1 to 5). -/
def Obligations.DecodeOfEncodeIsTheInstruction : Prop :=
  ∀ (c : Coded) (rest : List Byte), c.wf = true → decode (encode c ++ rest) = .ok (c, rest)

/-- Each byte string has one reading: what decodes is well-formed and encodes back to the bytes read. -/
def Obligations.DecodedBytesEncodeBack : Prop :=
  ∀ (bs : List Byte) (c : Coded) (rest : List Byte),
    decode bs = .ok (c, rest) → c.wf = true ∧ encode c ++ rest = bs

/-- R65's nine rows with format, length and operand, and R69: each of the 256 byte values selects exactly one of the ten
kinds. -/
def Obligations.OpcodeMapIsTotalAndExact : Prop :=
  (∀ op : Byte, decodeOpcode op =
    if op = 0x21#8 then .ldHLnn else if op = 0x3E#8 then .ldAn else if op = 0x3C#8 then .incA
    else if op = 0x3D#8 then .decA else if op = 0xE9#8 then .jpHL else if op = 0xE5#8 then .pushHL
    else if op = 0xE1#8 then .popHL else if op = 0xCD#8 then .callnn else if op = 0xC9#8 then .ret
    else .unmapped op) ∧
  (∀ op : Byte, (decodeOpcode op).format =
    if op = 0x21#8 ∨ op = 0xCD#8 then .f2 else if op = 0x3E#8 then .f1 else .f0) ∧
  (∀ op : Byte, (decodeOpcode op).format.length =
    if op = 0x21#8 ∨ op = 0xCD#8 then 3 else if op = 0x3E#8 then 2 else 1) ∧
  (∀ b1 b2 : Byte, decode [0x21#8, b1, b2] = .ok (⟨.ldHLnn, .imm16 (joinBytes b1 b2)⟩, []) ∧
    decode [0xCD#8, b1, b2] = .ok (⟨.callnn, .imm16 (joinBytes b1 b2)⟩, []) ∧
    decode [0x3E#8, b1] = .ok (⟨.ldAn, .imm8 b1⟩, [])) ∧
  (∀ op : Byte, (decodeOpcode op).format = .f0 → decode [op] = .ok (⟨decodeOpcode op, .none⟩, []))

/-- Words written out from the spec's encodings decode to the instructions they stand for (30_encoding.md R63's example,
95_test_vectors.md X5, X7 and section 2.9). -/
def Obligations.WrittenOutWordsDecode : Prop :=
  decode [0x21#8, 0x98#8, 0x76#8] = .ok (⟨.ldHLnn, .imm16 0x9876#16⟩, []) ∧
  decode [0x3E#8, 0xEA#8, 0x3C#8] = .ok (⟨.ldAn, .imm8 0xEA#8⟩, [0x3C#8]) ∧
  decode [0xCD#8, 0x88#8, 0x44#8] = .ok (⟨.callnn, .imm16 0x8844#16⟩, []) ∧
  decode [0xC3#8, 0x12#8, 0x34#8] = .ok (⟨.unmapped 0xC3#8, .none⟩, [0x12#8, 0x34#8]) ∧
  decodeTableWord 24 0x769821 = some .ldHLnn ∧
  decodeTableWord 8 0xE9 = some .jpHL

/-! ### Arithmetic -/

/-- R113: every arithmetic operation of the machine, as a law on unsigned numbers. -/
def Obligations.ArithmeticWrapsAndSplitsExactly : Prop :=
  (∀ x : Byte, (incByte x).toNat = (x.toNat + 1) % 256) ∧
  (∀ x : Byte, (decByte x).toNat = (x.toNat + 255) % 256) ∧
  (∀ x : Word, (x + 1).toNat = (x.toNat + 1) % 65536 ∧ (x - 1).toNat = (x.toNat + 65535) % 65536) ∧
  (∀ pc : Word, (returnAddress pc).toNat = (pc.toNat + 2) % 65536) ∧
  (∀ h l : Byte, (joinBytes h l).toNat = h.toNat * 256 + l.toNat) ∧
  (∀ v : Word, (hiByte v).toNat = v.toNat / 256 ∧ (loByte v).toNat = v.toNat % 256 ∧
    joinBytes (hiByte v) (loByte v) = v)

/-! ### Creation and the data invariant -/

/-- R34, R180: what creation leaves, in the machine and in the host's session of it (log 9). `SP` is the
highest valid address, the spec's decision D5. `HL`, `A` and every cell are whatever the creation is given: R34 leaves them
unspecified. -/
def Obligations.CreationLeavesTheStatedValues : Prop :=
  ∀ (size : MemSize) (hl : Word) (a : Byte) (cells : List Host.Cell),
    let s := State.created size hl a cells
    s.pc = 0x0000#16 ∧ s.sp.toNat + 1 = size.cells ∧ s.valid s.sp ∧ s.hl = hl ∧ s.a = a ∧
      s.mem.size = size ∧ s.mem.cells = cells ∧ Session.create size hl a cells = ⟨s, .boot⟩

/-- The state after reset is a creation with the values the model chose where R34 leaves them open: 65535 cells (log 2),
`HL = 0` and `A = 0` (log 3), every cell 00 (log 4). Its memory is canonical. The model's choice. -/
def Obligations.ResetIsACanonicalCreation : Prop :=
  State.reset = State.created .cells65535 0x0000#16 0x00#8 [] ∧ Canonical State.reset ∧
    State.reset.sp = 0xFFFE#16 ∧ ∀ x : Word, State.reset.byteAt x = 0x00#8

/-- Any content of the memory is the content of some canonical memory, so a claim about every state is a claim about every
content R34 allows (log 4). -/
def Obligations.EveryContentIsSomeCanonicalMemory : Prop :=
  ∀ (size : MemSize) (content : Nat → Byte),
    ∃ m : Memory, m.wf ∧ m.size = size ∧ ∀ n : Nat, m.valid n → m.get n = content n

/-- From every state with a canonical memory, a step leaves a canonical memory of the same size, also when it faults. -/
def Obligations.StepKeepsMemoryCanonical : Prop :=
  ∀ s : State, Canonical s →
    (∀ t, step s = .next t → Canonical t ∧ t.mem.size = s.mem.size) ∧
    (∀ addr kind t, step s = .fault (.outOfRange addr kind t) → Canonical t ∧ t.mem.size = s.mem.size)

/-! ### Memory, fetch and stack primitives -/

/-- R42: a read answers the byte and changes nothing, or raises. -/
def Obligations.MemReadAnswersTheByteOrRaises : Prop :=
  ∀ (s : State) (addr : Word),
    (addr.toNat < s.mem.size.cells → memRead addr s = .ok (s.byteAt addr) s) ∧
    (¬ addr.toNat < s.mem.size.cells → memRead addr s = .stop (.outOfRange addr .read s))

/-- R43: a write changes exactly one cell, which then reads as the value; or it raises and changes nothing. -/
def Obligations.MemWriteChangesExactlyOneCell : Prop :=
  ∀ (s : State) (addr : Word) (v : Byte),
    (addr.toNat < s.mem.size.cells →
      ∃ t, memWrite addr v s = .ok () t ∧ t.byteAt addr = v ∧ memRead addr t = .ok v t ∧ SameMemoryBut [addr] s t ∧
        t.pc = s.pc ∧ t.sp = s.sp ∧ t.hl = s.hl ∧ t.a = s.a) ∧
    (¬ addr.toNat < s.mem.size.cells → memWrite addr v s = .stop (.outOfRange addr .write s))

/-- R81: the read first, the increment second; if the read raises, `PC` is not incremented. -/
def Obligations.FetchReadsThenAdvances : Prop :=
  ∀ s : State,
    (s.valid s.pc → fetch8 s = .ok (s.byteAt s.pc) { s with pc := s.pc + 1 }) ∧
    (¬ s.valid s.pc → fetch8 s = .stop (.outOfRange s.pc .read s))

/-- R130: the decrement precedes the write, the high byte precedes the low byte, and the word lies little-endian. What
the state a raising write leaves holds beside `SP`, the high byte kept when the second write raises among it, is R157, the
spec's decision D6 (log 5). -/
def Obligations.PushStoresHighByteThenLowByte : Prop :=
  ∀ s : State,
    (∀ b : Byte, s.valid (s.sp - 1) →
      ∃ t, push8 b s = .ok () t ∧ t.sp = s.sp - 1 ∧ t.byteAt (s.sp - 1) = b ∧ SameMemoryBut [s.sp - 1] s t ∧
        t.pc = s.pc ∧ t.hl = s.hl ∧ t.a = s.a) ∧
    (∀ b : Byte, ¬ s.valid (s.sp - 1) →
      push8 b s = .stop (.outOfRange (s.sp - 1) .write { s with sp := s.sp - 1 })) ∧
    (∀ v : Word, s.valid (s.sp - 1) → s.valid (s.sp - 2) →
      ∃ t, push16 v s = .ok () t ∧ t.sp = s.sp - 2 ∧ t.byteAt (s.sp - 1) = hiByte v ∧ t.byteAt (s.sp - 2) = loByte v ∧
        SameMemoryBut [s.sp - 1, s.sp - 2] s t ∧ t.pc = s.pc ∧ t.hl = s.hl ∧ t.a = s.a) ∧
    (∀ v : Word, ¬ s.valid (s.sp - 1) →
      push16 v s = .stop (.outOfRange (s.sp - 1) .write { s with sp := s.sp - 1 })) ∧
    (∀ v : Word, s.valid (s.sp - 1) → ¬ s.valid (s.sp - 2) →
      ∃ t, push16 v s = .stop (.outOfRange (s.sp - 2) .write t) ∧ t.sp = s.sp - 2 ∧
        t.byteAt (s.sp - 1) = hiByte v ∧ SameMemoryBut [s.sp - 1] s t ∧ t.pc = s.pc ∧ t.hl = s.hl ∧ t.a = s.a)

/-- R131: the read precedes the increment, the low byte precedes the high byte, and memory stays. -/
def Obligations.PopReadsLowByteThenHighByte : Prop :=
  ∀ s : State,
    (s.valid s.sp → pop8 s = .ok (s.byteAt s.sp) { s with sp := s.sp + 1 }) ∧
    (¬ s.valid s.sp → pop8 s = .stop (.outOfRange s.sp .read s) ∧ pop16 s = .stop (.outOfRange s.sp .read s)) ∧
    (s.valid s.sp → s.valid (s.sp + 1) →
      pop16 s = .ok (joinBytes (s.byteAt (s.sp + 1)) (s.byteAt s.sp)) { s with sp := s.sp + 2 }) ∧
    (s.valid s.sp → ¬ s.valid (s.sp + 1) →
      pop16 s = .stop (.outOfRange (s.sp + 1) .read { s with sp := s.sp + 1 }))

/-! ### The step -/

/-- R80 to R83: when the bytes at `PC` decode to an instruction, a step is its meaning in the state after the opcode fetch;
so it is when only its operand bytes are missing; with no byte at `PC` the fetch faults. -/
def Obligations.StepRunsTheDecodedInstruction : Prop :=
  ∀ s : State,
    (∀ c rest, decode (codeAt s.mem 3 s.pc) = .ok (c, rest) → step s = exec c.instr { s with pc := s.pc + 1 }) ∧
    (∀ i, decode (codeAt s.mem 3 s.pc) = .error (.operandMissing i) →
      step s = exec i { s with pc := s.pc + 1 }) ∧
    (decode (codeAt s.mem 3 s.pc) = .error .noOpcode → step s = .fault (.outOfRange s.pc .read s))

/-- R46, R62, R63: an instruction that stands in memory at `PC` runs with its operand: `LD HL,nn` loads `nn`, `LD A,n` loads
`n`, and `CALL nn` goes to `nn` when its pushes do not land on its operand bytes. The byte of the 16-bit immediate at the
lower address is its high byte. -/
def Obligations.StandingInstructionRunsWithItsOperand : Prop :=
  (∀ b1 b2 : Byte, encode ⟨.ldHLnn, .imm16 (joinBytes b1 b2)⟩ = [0x21#8, b1, b2] ∧
    encode ⟨.callnn, .imm16 (joinBytes b1 b2)⟩ = [0xCD#8, b1, b2] ∧ encode ⟨.ldAn, .imm8 b1⟩ = [0x3E#8, b1]) ∧
  (∀ (s : State) (nn : Word), StandsAt ⟨.ldHLnn, .imm16 nn⟩ s.pc s.mem →
    step s = .next { s with hl := nn, pc := s.pc + 3 }) ∧
  (∀ (s : State) (n : Byte), StandsAt ⟨.ldAn, .imm8 n⟩ s.pc s.mem →
    step s = .next { s with a := n, pc := s.pc + 2 }) ∧
  (∀ (s : State) (nn : Word), StandsAt ⟨.callnn, .imm16 nn⟩ s.pc s.mem →
    s.valid (s.sp - 1) → s.valid (s.sp - 2) →
    s.sp - 1 ≠ s.pc + 1 → s.sp - 1 ≠ s.pc + 2 → s.sp - 2 ≠ s.pc + 1 → s.sp - 2 ≠ s.pc + 2 →
    ∃ t, step s = .next t ∧ t.pc = nn ∧ t.sp = s.sp - 2 ∧
      t.byteAt (s.sp - 1) = hiByte (s.pc + 3) ∧ t.byteAt (s.sp - 2) = loByte (s.pc + 3))

/-- The placing of one instruction for the next step (log 8, the model's own operation): the word placed at `PC` is fetched
and run by the next step. -/
def Obligations.PlacedWordIsFetchedAndRun : Prop :=
  ∀ (s : State) (nbits w : Nat) (i : Instr), s.valid s.pc → decodeTableWord nbits w = some i →
    step (s.withFetchWord nbits w) = exec i { s.withFetchWord nbits w with pc := s.pc + 1 }

/-- R90: every step yields exactly one outcome and one next state; it never refuses. -/
def Obligations.StepIsTotal : Prop :=
  ∀ s : State, (∃ o t, stepOutcome s = some (o, t)) ∧ (∀ r, step s ≠ .refused r)

/-- R152, R155: a step faults exactly at the first access of R152's row whose address is no cell, and completes exactly
when there is none. -/
def Obligations.StepFaultsAtItsFirstInvalidAccess : Prop :=
  ∀ s : State,
    let accesses := stepAccesses (decodeOpcode (s.byteAt s.pc)) s.pc s.sp
    (firstInvalid s.mem accesses = none ↔ ∃ t, step s = .next t) ∧
    (∀ kind addr, firstInvalid s.mem accesses = some (kind, addr) ↔
      ∃ t, step s = .fault (.outOfRange addr kind t))

/-- R41, R151: `OutOfRange` arises only with 65535 cells and only at address 0xFFFF. -/
def Obligations.OutOfRangeOnlyAtTheTopOfTheSmallerMemory : Prop :=
  ∀ (s : State) (addr : Word) (kind : AccessKind) (t : State),
    step s = .fault (.outOfRange addr kind t) → s.mem.size = .cells65535 ∧ addr = 0xFFFF#16

/-- R151: with 65536 cells no run ever faults. -/
def Obligations.NoRunFaultsWithTheLargerMemory : Prop :=
  ∀ (k : Nat) (s : State), s.mem.size = .cells65536 → Safe k s

/-- R22's table of `PC` after a step that does not fault. The operands of `CALL nn` are read after its pushes, so they are
those of the memory it leaves. -/
def Obligations.ProgramCounterAfterAStep : Prop :=
  ∀ s t : State, step s = .next t →
    t.pc = match decodeOpcode (s.byteAt s.pc) with
      | .ldHLnn     => s.pc + 3
      | .ldAn       => s.pc + 2
      | .incA       => s.pc + 1
      | .decA       => s.pc + 1
      | .jpHL       => s.hl
      | .pushHL     => s.pc + 1
      | .popHL      => s.pc + 1
      | .callnn     => joinBytes (t.byteAt (s.pc + 1)) (t.byteAt (s.pc + 2))
      | .ret        => joinBytes (s.byteAt (s.sp + 1)) (s.byteAt s.sp)
      | .unmapped _ => s.pc + 1

/-- R84, R153: the outcome reports `UnknownOpcode` with its byte and address exactly when the fetched byte is unmapped, and
then only `PC` has changed. That the report travels in the outcome is the spec's decision D9. -/
def Obligations.UnknownOpcodeIsReportedExactlyWhenUnmapped : Prop :=
  ∀ (s t : State) (op : Byte) (addr : Word),
    stepOutcome s = some (.okUnknown op addr, t) ↔
      s.valid s.pc ∧ op = s.byteAt s.pc ∧ isUnmapped op = true ∧ addr = s.pc ∧ t = { s with pc := s.pc + 1 }

/-- R157's table: the state a faulting step leaves, row by row (`a` is `s.pc`, the return address is `s.pc + 3`). The
spec's decision D6 (log 5). -/
def Obligations.StateAFaultLeaves : Prop :=
  ∀ (s : State) (addr : Word) (kind : AccessKind) (t : State),
    step s = .fault (.outOfRange addr kind t) →
      t.hl = s.hl ∧ t.a = s.a ∧
      (¬ s.valid s.pc → t = s) ∧
      (s.valid s.pc →
        match decodeOpcode (s.byteAt s.pc) with
        | .ldHLnn => t = { s with pc := addr } ∧ (addr = s.pc + 1 ∨ addr = s.pc + 2)
        | .ldAn   => t = { s with pc := addr } ∧ addr = s.pc + 1
        | .pushHL =>
          kind = .write ∧ t.pc = s.pc + 1 ∧ t.sp = addr ∧
            (addr = s.sp - 1 ∧ t.mem = s.mem ∨
              addr = s.sp - 2 ∧ t.byteAt (s.sp - 1) = s.h ∧ SameMemoryBut [s.sp - 1] s t)
        | .popHL => t = { s with pc := s.pc + 1, sp := addr } ∧ (addr = s.sp ∨ addr = s.sp + 1)
        | .callnn =>
          (kind = .write ∧ t.pc = s.pc + 1 ∧ t.sp = addr ∧
            (addr = s.sp - 1 ∧ t.mem = s.mem ∨
              addr = s.sp - 2 ∧ t.byteAt (s.sp - 1) = hiByte (s.pc + 3) ∧ SameMemoryBut [s.sp - 1] s t)) ∨
          (kind = .read ∧ t.pc = addr ∧ (addr = s.pc + 1 ∨ addr = s.pc + 2) ∧ t.sp = s.sp - 2 ∧
            t.byteAt (s.sp - 1) = hiByte (s.pc + 3) ∧ t.byteAt (s.sp - 2) = loByte (s.pc + 3) ∧
            SameMemoryBut [s.sp - 1, s.sp - 2] s t)
        | .ret => t = { s with pc := s.pc + 1, sp := addr } ∧ (addr = s.sp ∨ addr = s.sp + 1)
        | .incA       => False
        | .decA       => False
        | .jpHL       => False
        | .unmapped _ => False)

/-- R58's boundary: with 65535 cells, an opcode with operand bytes at the last valid address raises at 0xFFFF. -/
def Obligations.OperandBeyondTheLastCellFaults : Prop :=
  ∀ s : State, s.mem.size = .cells65535 → s.pc = 0xFFFE#16 →
    (s.byteAt s.pc = 0x3E#8 ∨ s.byteAt s.pc = 0x21#8 →
      step s = .fault (.outOfRange 0xFFFF#16 .read { s with pc := 0xFFFF#16 })) ∧
    (s.byteAt s.pc = 0xCD#8 → s.valid (s.sp - 1) → s.valid (s.sp - 2) →
      ∃ t, step s = .fault (.outOfRange 0xFFFF#16 .read t) ∧ t.pc = 0xFFFF#16 ∧ t.sp = s.sp - 2 ∧
        t.byteAt (s.sp - 1) = 0x00#8 ∧ t.byteAt (s.sp - 2) = 0x01#8)

/-! ### The instructions: result, completion and faults -/

/-- R100 `LD HL,nn`: completes when both operand bytes are readable, with `H` and `L` the two bytes (R24); else it faults at
the first that is not, with `PC` left there (the state left is the spec's decision D6, log 5). -/
def Obligations.LoadHlResult : Prop :=
  ∀ s : State,
    (s.valid s.pc → s.valid (s.pc + 1) →
      ∃ t, exec .ldHLnn s = .next t ∧
        t = { s with hl := joinBytes (s.byteAt s.pc) (s.byteAt (s.pc + 1)), pc := s.pc + 2 } ∧
        t.h = s.byteAt s.pc ∧ t.l = s.byteAt (s.pc + 1)) ∧
    (¬ s.valid s.pc → exec .ldHLnn s = .fault (.outOfRange s.pc .read s)) ∧
    (s.valid s.pc → ¬ s.valid (s.pc + 1) →
      exec .ldHLnn s = .fault (.outOfRange (s.pc + 1) .read { s with pc := s.pc + 1 }))

/-- R101 `LD A,n`: completes when the operand byte is readable; else it faults there. -/
def Obligations.LoadAResult : Prop :=
  ∀ s : State,
    (s.valid s.pc → exec .ldAn s = .next { s with a := s.byteAt s.pc, pc := s.pc + 1 }) ∧
    (¬ s.valid s.pc → exec .ldAn s = .fault (.outOfRange s.pc .read s))

/-- R110 `INC A`: opcode 3C, one byte; `A + 1` mod 256 and nothing else, with no exception after the fetch. -/
def Obligations.IncrementAResult : Prop :=
  decode [0x3C#8] = .ok (⟨.incA, .none⟩, []) ∧
  (∀ s : State, exec .incA s = .next { s with a := s.a + 1 } ∧ (s.a + 1).toNat = (s.a.toNat + 1) % 256) ∧
  (∀ s : State, s.valid s.pc → s.byteAt s.pc = 0x3C#8 → step s = .next { s with a := s.a + 1, pc := s.pc + 1 })

/-- R111 `DEC A`: opcode 3D, one byte; `A - 1` mod 256 and nothing else, with no exception after the fetch. -/
def Obligations.DecrementAResult : Prop :=
  decode [0x3D#8] = .ok (⟨.decA, .none⟩, []) ∧
  (∀ s : State, exec .decA s = .next { s with a := s.a - 1 } ∧ (s.a - 1).toNat = (s.a.toNat + 255) % 256) ∧
  (∀ s : State, s.valid s.pc → s.byteAt s.pc = 0x3D#8 → step s = .next { s with a := s.a - 1, pc := s.pc + 1 })

/-- R120 `JP (HL)`: opcode E9, one byte; `PC` becomes `HL` whatever `HL` is, with outcome `Ok` (in
R120's words; that the outcome is a value is D9, log 7); an invalid target faults at the next fetch only, and a jump to itself
is a loop of one instruction. -/
def Obligations.JumpHlResult : Prop :=
  decode [0xE9#8] = .ok (⟨.jpHL, .none⟩, []) ∧
  (∀ s : State, exec .jpHL s = .next { s with pc := s.hl }) ∧
  (∀ s : State, s.valid s.pc → s.byteAt s.pc = 0xE9#8 →
    step s = .next { s with pc := s.hl } ∧
    stepOutcome s = some (.ok, { s with pc := s.hl }) ∧
    (¬ s.valid s.hl →
      step { s with pc := s.hl } = .fault (.outOfRange s.hl .read { s with pc := s.hl })) ∧
    (s.hl = s.pc → step s = .next s))

/-- R132 `PUSH HL`: completes when both stack slots are cells; else it faults at the first that is not, the earlier effects
staying (the spec's decision D6, log 5). -/
def Obligations.PushHlResult : Prop :=
  ∀ s : State,
    (s.valid (s.sp - 1) → s.valid (s.sp - 2) →
      ∃ t, exec .pushHL s = .next t ∧ t.sp = s.sp - 2 ∧ t.byteAt (s.sp - 1) = s.h ∧ t.byteAt (s.sp - 2) = s.l ∧
        SameMemoryBut [s.sp - 1, s.sp - 2] s t ∧ t.pc = s.pc ∧ t.hl = s.hl ∧ t.a = s.a) ∧
    (¬ s.valid (s.sp - 1) →
      exec .pushHL s = .fault (.outOfRange (s.sp - 1) .write { s with sp := s.sp - 1 })) ∧
    (s.valid (s.sp - 1) → ¬ s.valid (s.sp - 2) →
      ∃ t, exec .pushHL s = .fault (.outOfRange (s.sp - 2) .write t) ∧ t.sp = s.sp - 2 ∧ t.byteAt (s.sp - 1) = s.h ∧
        SameMemoryBut [s.sp - 1] s t ∧ t.pc = s.pc ∧ t.hl = s.hl ∧ t.a = s.a)

/-- R133 `POP HL`: completes when both stack bytes are readable; else it faults at the first that is not, `HL` unchanged. -/
def Obligations.PopHlResult : Prop :=
  ∀ s : State,
    (s.valid s.sp → s.valid (s.sp + 1) →
      exec .popHL s = .next { s with hl := joinBytes (s.byteAt (s.sp + 1)) (s.byteAt s.sp), sp := s.sp + 2 }) ∧
    (¬ s.valid s.sp → exec .popHL s = .fault (.outOfRange s.sp .read s)) ∧
    (s.valid s.sp → ¬ s.valid (s.sp + 1) →
      exec .popHL s = .fault (.outOfRange (s.sp + 1) .read { s with sp := s.sp + 1 }))

/-- R140 `CALL nn`: the return address is pushed, then the operand bytes are read from the memory that leaves, so `PC` is
what stands there after the pushes; the four accesses fault in their order. The state a fault leaves is the spec's
decision D6 (log 5), the wrap of the return address its decision D12. -/
def Obligations.CallResult : Prop :=
  ∀ s : State,
    (s.valid (s.sp - 1) → s.valid (s.sp - 2) → s.valid s.pc → s.valid (s.pc + 1) →
      ∃ t, exec .callnn s = .next t ∧ t.sp = s.sp - 2 ∧
        t.byteAt (s.sp - 1) = hiByte (s.pc + 2) ∧ t.byteAt (s.sp - 2) = loByte (s.pc + 2) ∧
        SameMemoryBut [s.sp - 1, s.sp - 2] s t ∧ t.hl = s.hl ∧ t.a = s.a ∧
        t.pc = joinBytes (t.byteAt s.pc) (t.byteAt (s.pc + 1))) ∧
    (¬ s.valid (s.sp - 1) →
      exec .callnn s = .fault (.outOfRange (s.sp - 1) .write { s with sp := s.sp - 1 })) ∧
    (s.valid (s.sp - 1) → ¬ s.valid (s.sp - 2) →
      ∃ t, exec .callnn s = .fault (.outOfRange (s.sp - 2) .write t) ∧ t.pc = s.pc ∧ t.sp = s.sp - 2 ∧
        t.byteAt (s.sp - 1) = hiByte (s.pc + 2) ∧ SameMemoryBut [s.sp - 1] s t ∧ t.hl = s.hl ∧ t.a = s.a) ∧
    (s.valid (s.sp - 1) → s.valid (s.sp - 2) → ¬ s.valid s.pc →
      ∃ t, exec .callnn s = .fault (.outOfRange s.pc .read t) ∧ t.pc = s.pc ∧ t.sp = s.sp - 2 ∧
        t.byteAt (s.sp - 1) = hiByte (s.pc + 2) ∧ t.byteAt (s.sp - 2) = loByte (s.pc + 2) ∧
        SameMemoryBut [s.sp - 1, s.sp - 2] s t ∧ t.hl = s.hl ∧ t.a = s.a) ∧
    (s.valid (s.sp - 1) → s.valid (s.sp - 2) → s.valid s.pc → ¬ s.valid (s.pc + 1) →
      ∃ t, exec .callnn s = .fault (.outOfRange (s.pc + 1) .read t) ∧ t.pc = s.pc + 1 ∧ t.sp = s.sp - 2 ∧
        t.byteAt (s.sp - 1) = hiByte (s.pc + 2) ∧ t.byteAt (s.sp - 2) = loByte (s.pc + 2) ∧
        SameMemoryBut [s.sp - 1, s.sp - 2] s t ∧ t.hl = s.hl ∧ t.a = s.a)

/-- R141 `RET`: completes when both stack bytes are readable; else it faults at the first that is not, `PC` not loaded. -/
def Obligations.ReturnResult : Prop :=
  ∀ s : State,
    (s.valid s.sp → s.valid (s.sp + 1) →
      exec .ret s = .next { s with pc := joinBytes (s.byteAt (s.sp + 1)) (s.byteAt s.sp), sp := s.sp + 2 }) ∧
    (¬ s.valid s.sp → exec .ret s = .fault (.outOfRange s.sp .read s)) ∧
    (s.valid s.sp → ¬ s.valid (s.sp + 1) →
      exec .ret s = .fault (.outOfRange (s.sp + 1) .read { s with sp := s.sp + 1 }))

/-- R85 `UNMAPPED`: each of the 247 byte values is a one-byte no-op with a report; the fetch alone can fault. That the report
travels in the outcome and carries the byte and its address is the spec's decision D9 (log 7). -/
def Obligations.UnmappedResult : Prop :=
  (∀ (op : Byte) (s : State), exec (.unmapped op) s = .next s) ∧
  (∀ s : State, s.valid s.pc → isUnmapped (s.byteAt s.pc) = true →
    step s = .next { s with pc := s.pc + 1 } ∧
    stepOutcome s = some (.okUnknown (s.byteAt s.pc) s.pc, { s with pc := s.pc + 1 })) ∧
  (∀ s : State, ¬ s.valid s.pc → step s = .fault (.outOfRange s.pc .read s))

/-- R140's corner cases, R187: a push that lands on the operand bytes changes the target (`s.pc` is `a + 1`). -/
def Obligations.CallOverItsOwnOperands : Prop :=
  ∀ s : State, s.valid (s.sp - 1) → s.valid (s.sp - 2) → s.valid s.pc → s.valid (s.pc + 1) →
    (s.sp = s.pc + 2 →
      ∃ t, exec .callnn s = .next t ∧ t.pc = joinBytes (loByte (s.pc + 2)) (hiByte (s.pc + 2))) ∧
    (s.sp = s.pc + 1 →
      ∃ t, exec .callnn s = .next t ∧ t.pc = joinBytes (hiByte (s.pc + 2)) (s.byteAt (s.pc + 1)) ∧
        t.byteAt (s.pc - 1) = loByte (s.pc + 2)) ∧
    (s.sp = s.pc + 3 →
      ∃ t, exec .callnn s = .next t ∧ t.pc = joinBytes (s.byteAt s.pc) (loByte (s.pc + 2)))

/-! ### Frames -/

/-- The instructions that store nothing and leave `SP` alone change `PC`, their destination register and nothing else. -/
def Obligations.RegisterInstructionsFrame : Prop :=
  ∀ (s t : State) (i : Instr), exec i s = .next t →
    (i = .ldHLnn → t.sp = s.sp ∧ t.a = s.a ∧ SameMemoryBut [] s t) ∧
    (i = .ldAn ∨ i = .incA ∨ i = .decA → t.sp = s.sp ∧ t.hl = s.hl ∧ SameMemoryBut [] s t) ∧
    (i = .jpHL ∨ (∃ op, i = .unmapped op) → t.sp = s.sp ∧ t.hl = s.hl ∧ t.a = s.a ∧ SameMemoryBut [] s t)

/-- `POP HL` and `RET` store nothing; beside `PC` they change `SP`, and `POP HL` its destination `HL`. -/
def Obligations.PoppingInstructionsFrame : Prop :=
  ∀ s t : State,
    (exec .popHL s = .next t → t.pc = s.pc ∧ t.sp = s.sp + 2 ∧ t.a = s.a ∧ SameMemoryBut [] s t) ∧
    (exec .ret s = .next t → t.sp = s.sp + 2 ∧ t.hl = s.hl ∧ t.a = s.a ∧ SameMemoryBut [] s t)

/-- `PUSH HL` and `CALL nn` store at `SP - 1` and `SP - 2` and nowhere else; beside `PC` they change `SP` alone. -/
def Obligations.PushingInstructionsFrame : Prop :=
  ∀ (s t : State) (i : Instr), i = .pushHL ∨ i = .callnn → exec i s = .next t →
    t.sp = s.sp - 2 ∧ t.hl = s.hl ∧ t.a = s.a ∧ SameMemoryBut [s.sp - 1, s.sp - 2] s t

/-- R56, R23 to R25 over the whole machine: a step stores only if its opcode is `PUSH HL` or `CALL nn`, and only below `SP`;
`SP` changes only by the four stack opcodes, `HL` only by `LD HL,nn` and `POP HL`, `A` only by its three. -/
def Obligations.OnlyTheNamedOpcodesWriteEachPieceOfState : Prop :=
  ∀ s t : State, step s = .next t →
    SameMemoryBut [s.sp - 1, s.sp - 2] s t ∧
    (s.byteAt s.pc ≠ 0xE5#8 → s.byteAt s.pc ≠ 0xCD#8 → t.mem = s.mem) ∧
    (s.byteAt s.pc ∉ [0xE5#8, 0xE1#8, 0xCD#8, 0xC9#8] → t.sp = s.sp) ∧
    (s.byteAt s.pc ∉ [0x21#8, 0xE1#8] → t.hl = s.hl) ∧
    (s.byteAt s.pc ∉ [0x3E#8, 0x3C#8, 0x3D#8] → t.a = s.a)

/-! ### Whole-machine rules -/

/-- R25, R145: "The value of `A` can never influence control flow, since nothing copies `A` anywhere": two runs that start
alike but for `A` stay alike but for `A`, and fault alike. -/
def Obligations.AccumulatorInfluencesNothingElse : Prop :=
  (∀ (s : State) (x : Byte),
    (∀ t, step s = .next t → ∃ y, step { s with a := x } = .next { t with a := y }) ∧
    (∀ addr kind t, step s = .fault (.outOfRange addr kind t) →
      step { s with a := x } = .fault (.outOfRange addr kind { t with a := x }))) ∧
  (∀ (k : Nat) (s t : State) (x : Byte), RunsTo k s t → ∃ y, RunsTo k { s with a := x } { t with a := y })

/-- R32: `HL` is read by `JP (HL)` and `PUSH HL` alone. Any other step does the same whatever `HL` holds: `LD HL,nn` and
`POP HL` leave the same new `HL`, the others leave `HL` as it is, and a step that faults does so at the same access. -/
def Obligations.HlInfluencesOnlyJumpAndPush : Prop :=
  ∀ (s : State) (v : Word), s.byteAt s.pc ≠ 0xE9#8 → s.byteAt s.pc ≠ 0xE5#8 →
    (∀ t, step s = .next t →
      step { s with hl := v } =
        .next { t with hl := if s.byteAt s.pc = 0x21#8 ∨ s.byteAt s.pc = 0xE1#8 then t.hl else v }) ∧
    (∀ addr kind t, step s = .fault (.outOfRange addr kind t) →
      step { s with hl := v } = .fault (.outOfRange addr kind { t with hl := v }))

/-- R112: each of `INC A` and `DEC A` undoes the other, and 256 executions of `INC A` return `A`. -/
def Obligations.IncrementAndDecrementAreInverse : Prop :=
  (∀ s : State, ∃ t, exec .incA s = .next t ∧ exec .decA t = .next s) ∧
  (∀ s : State, ∃ t, exec .decA s = .next t ∧ exec .incA t = .next s) ∧
  (∀ s : State, execTimes .incA 256 s = .next s)

/-- R121: `LD HL,nn` followed by `JP (HL)` sets `PC` to the immediate. -/
def Obligations.LoadThenJumpReachesTheImmediate : Prop :=
  ∀ (s : State) (nn : Word), StandsAt ⟨.ldHLnn, .imm16 nn⟩ s.pc s.mem → StandsAt ⟨.jpHL, .none⟩ (s.pc + 3) s.mem →
    RunsTo 2 s { s with hl := nn, pc := nn }

/-- R134: a push that does not fault is undone by the pop after it, as primitives and as instructions; the two cells keep
the pushed bytes. -/
def Obligations.PopUndoesPush : Prop :=
  (∀ (v : Word) (s t : State), push16 v s = .ok () t → pop16 t = .ok v { t with sp := s.sp }) ∧
  (∀ s : State, StandsAt ⟨.pushHL, .none⟩ s.pc s.mem → StandsAt ⟨.popHL, .none⟩ (s.pc + 1) s.mem →
    s.valid (s.sp - 1) → s.valid (s.sp - 2) → s.sp - 1 ≠ s.pc + 1 → s.sp - 2 ≠ s.pc + 1 →
    ∃ t, RunsTo 2 s t ∧ t.hl = s.hl ∧ t.sp = s.sp ∧ t.a = s.a ∧ t.pc = s.pc + 2 ∧
      t.byteAt (s.sp - 1) = s.h ∧ t.byteAt (s.sp - 2) = s.l ∧ SameMemoryBut [s.sp - 1, s.sp - 2] s t)

/-- R142: a call of a `RET` comes back to the byte after the call's operands with `SP` unchanged, provided no access faults
and the pushed bytes land neither on the operands nor on the `RET`. -/
def Obligations.ReturnUndoesCall : Prop :=
  ∀ (s : State) (addr : Word),
    StandsAt ⟨.callnn, .imm16 addr⟩ s.pc s.mem → StandsAt ⟨.ret, .none⟩ addr s.mem →
    s.valid (s.sp - 1) → s.valid (s.sp - 2) →
    (∀ x ∈ [s.sp - 1, s.sp - 2], x ≠ s.pc + 1 ∧ x ≠ s.pc + 2 ∧ x ≠ addr) →
    ∃ t, RunsTo 2 s t ∧ t.pc = s.pc + 3 ∧ t.sp = s.sp ∧ t.hl = s.hl ∧ t.a = s.a ∧
      t.byteAt (s.sp - 1) = hiByte (s.pc + 3) ∧ t.byteAt (s.sp - 2) = loByte (s.pc + 3)

/-- R135, R71: `PUSH HL` and `CALL nn` write the layout `POP HL` and `RET` read: a push then a return is a jump to `HL` with
`SP` unchanged, a call then a pop loads the return address. -/
def Obligations.EitherPushServesEitherPop : Prop :=
  (∀ s t : State, exec .pushHL s = .next t → exec .ret t = .next { t with pc := s.hl, sp := s.sp }) ∧
  (∀ s t : State, exec .callnn s = .next t → exec .popHL t = .next { t with hl := s.pc + 2, sp := s.sp })

/-- R48: the byte orders meet: `HL` pushed and read back as an immediate has its bytes swapped. -/
def Obligations.PushedWordReadAsImmediateIsSwapped : Prop :=
  ∀ s t : State, exec .pushHL s = .next t →
    exec .ldHLnn { t with pc := s.sp - 2 } = .next { t with hl := joinBytes s.l s.h, pc := s.sp }

/-- R120, R194: a `JP (HL)` at the address `HL` holds loops for ever and never faults. -/
def Obligations.JumpToItselfLoopsForEver : Prop :=
  ∀ (k : Nat) (s : State), StandsAt ⟨.jpHL, .none⟩ s.pc s.mem → s.hl = s.pc → RunsTo k s s

/-- R194: with 65536 cells that hold no mapped opcode, stepping goes round the whole address space for ever. -/
def Obligations.UnmappedMemoryIsWalkedForEver : Prop :=
  ∀ (k : Nat) (s : State), s.mem.size = .cells65536 → (∀ x : Word, isUnmapped (s.byteAt x) = true) →
    RunsTo k s { s with pc := s.pc + BitVec.ofNat 16 k }

/-! ### The host interface -/

/-- R33, R183: once the first step is made nothing but a step changes the machine, and a host write is refused. The
reading is the spec's decision D14 (log 9). -/
def Obligations.AfterTheFirstStepOnlyStepsChangeState : Prop :=
  (∀ c c' : Session, ∀ r : HostRequest, ∀ v : HostAnswer,
    c.phase ≠ .boot → r ≠ .step → serve c r = .ok (c', v) → c'.state = c.state ∧ c'.phase ≠ .boot) ∧
  (∀ c c' : Session, ∀ v : HostAnswer, serve c .step = .ok (c', v) →
    c'.phase ≠ .boot ∧
    ∀ n m : Nat, ∀ r ∈ [HostRequest.setPC n, .setSP n, .setHL n, .setA n, .writeCell m n],
      serve c' r = .error .writeDuringRun)

/-- R158: the first fault ends the run: the session keeps the state R157 gives, answers every read of it, and takes no
further step. That the run ends there is the spec's decision D7 (log 9). -/
def Obligations.FaultEndsTheRun : Prop :=
  ∀ (c : Session) (addr : Word) (kind : AccessKind) (t : State),
    c.phase = .boot ∨ c.phase = .running → step c.state = .fault (.outOfRange addr kind t) →
    serve c .step = .ok (⟨t, .failed⟩, .outcome (.fault addr kind)) ∧
    serve ⟨t, .failed⟩ .step = .error .stepAfterFault ∧
    ReadsAnswer ⟨t, .failed⟩

/-- R33, R181, R183 (decision D14): before the first step the host sets a register to the value modulo `2^width`. -/
def Obligations.HostSetsRegistersModuloTheirWidth : Prop :=
  ∀ (c : Session) (v : Nat), c.phase = .boot →
    (∃ w : Word, w.toNat = v % 65536 ∧
      serve c (.setPC v) = .ok (⟨{ c.state with pc := w }, .boot⟩, .done) ∧
      serve c (.setSP v) = .ok (⟨{ c.state with sp := w }, .boot⟩, .done) ∧
      serve c (.setHL v) = .ok (⟨{ c.state with hl := w }, .boot⟩, .done)) ∧
    (∃ b : Byte, b.toNat = v % 256 ∧ serve c (.setA v) = .ok (⟨{ c.state with a := b }, .boot⟩, .done))

/-- R182: a piece of an image that fits is read back at its addresses and nothing else changes; one with a byte at an address
that is no cell is answered `OutOfRange`. That the answer names the first such address is the model's choice (log 9: a piece
is written cell by cell in address order); so is that a piece of no bytes is done wherever its base. -/
def Obligations.LoadedPieceIsReadBack : Prop :=
  ∀ (c : Session) (base : Nat) (bs : List Byte), c.phase = .boot →
    (base + bs.length ≤ c.state.mem.size.cells →
      ∃ m : Memory, loadPiece c base bs = .ok (⟨{ c.state with mem := m }, .boot⟩, .done) ∧
        m.size = c.state.mem.size ∧
        ∀ n : Nat, m.get n = if base ≤ n ∧ n < base + bs.length then bs.getD (n - base) 0x00#8
          else c.state.mem.get n) ∧
    (¬ base + bs.length ≤ c.state.mem.size.cells → bs ≠ [] →
      ∃ m : Memory, loadPiece c base bs =
        .ok (⟨{ c.state with mem := m }, .boot⟩, .outOfRange (max base c.state.mem.size.cells) .write)) ∧
    (bs = [] → loadPiece c base bs = .ok (c, .done))

/-- R33, R183: from creation on the host is answered every read of a register and of a cell, and a read changes nothing. A
discard is answered in every phase but `discarded` and brings that phase. After it (R36) nothing is answered: the model's
reading of "discarded" (log 9). -/
def Obligations.HostReadsAnswerTheStateUntilDiscard : Prop :=
  (∀ c : Session, c.phase ≠ .discarded →
    ReadsAnswer c ∧ serve c .discard = .ok (⟨c.state, .discarded⟩, .done)) ∧
  (∀ (c : Session) (r : HostRequest), c.phase = .discarded → serve c r = .error .afterDiscard)

/-- R84's three outcomes, each exactly when the step gives it: `Ok` when a mapped instruction ran to its end, `OkUnknown` when
an unmapped one did, `Fault` when an access was at an address that is no cell. That `OkUnknown` and `Fault` travel in the
outcome and what they carry is the spec's decision D9 (log 7). -/
def Obligations.OutcomeTellsHowTheStepEnded : Prop :=
  ∀ s t : State,
    (stepOutcome s = some (.ok, t) ↔ step s = .next t ∧ isUnmapped (s.byteAt s.pc) = false) ∧
    (∀ op addr, stepOutcome s = some (.okUnknown op addr, t) ↔
      step s = .next t ∧ isUnmapped (s.byteAt s.pc) = true ∧ op = s.byteAt s.pc ∧ addr = s.pc) ∧
    (∀ addr kind, stepOutcome s = some (.fault addr kind, t) ↔ step s = .fault (.outOfRange addr kind t))

/-- R183, R185, R153: a step that completes is answered with its outcome and leaves the run going on, `UnknownOpcode` reported
or not. The session's phase is the model's (log 9). -/
def Obligations.CompletedStepIsAnsweredAndTheRunGoesOn : Prop :=
  ∀ (c : Session) (t : State), c.phase = .boot ∨ c.phase = .running → step c.state = .next t →
    serve c .step = .ok (⟨t, .running⟩, .outcome
      (if isUnmapped (c.state.byteAt c.state.pc) = true then
        .okUnknown (c.state.byteAt c.state.pc) c.state.pc
      else .ok))
end

