-- ==== Sys2Proof/Laws/Bytes.lean ====
section
/-! SUPPORT. Bytes and words (R6, R113), and the decoder's tables. -/

namespace Sys2Proof.Machine

@[simp] theorem hiByte_joinBytes (h l : Byte) : hiByte (joinBytes h l) = h := by
  apply BitVec.eq_of_getLsbD_eq
  intro i hi
  simp only [hiByte, joinBytes, BitVec.getLsbD_append, BitVec.getLsbD_extractLsb']
  simp [hi]

@[simp] theorem loByte_joinBytes (h l : Byte) : loByte (joinBytes h l) = l := by
  apply BitVec.eq_of_getLsbD_eq
  intro i hi
  simp only [loByte, joinBytes, BitVec.getLsbD_append, BitVec.getLsbD_extractLsb']
  simp [hi]

/-- R113: `v = ((v >> 8) << 8) | (v & 0xFF)`. -/
@[simp] theorem joinBytes_hiByte_loByte (v : Word) : joinBytes (hiByte v) (loByte v) = v := by
  apply BitVec.eq_of_getLsbD_eq
  intro i hi
  simp only [hiByte, loByte, joinBytes, BitVec.getLsbD_append, BitVec.getLsbD_extractLsb']
  by_cases h : i < 8
  · simp [h]
  · have h' : i - 8 < 8 := by omega
    have e : 8 + (i - 8) = i := by omega
    simp [h, h', e]

/-- R6: `{h, l} = h * 256 + l`. -/
theorem joinBytes_toNat (h l : Byte) : (joinBytes h l).toNat = h.toNat * 256 + l.toNat := by
  unfold joinBytes
  rw [BitVec.toNat_append, ← Nat.shiftLeft_add_eq_or_of_lt l.isLt, Nat.shiftLeft_eq]

end Sys2Proof.Machine

namespace Sys2Proof

open Sys2Proof.Machine

/-- No two rows of R65's table have one opcode. -/
theorem opcodeTable_unambiguous : opcodeTable.Pairwise fun r q => r.1 ≠ q.1 := by decide

/-- R65's table and the opcode column agree, row by row. -/
theorem opcodeTable_opcode : ∀ r ∈ opcodeTable, r.2.opcode = r.1 := by decide

/-- R67's ranges are exactly the bytes the table does not map. -/
theorem decodeOpcode_eq_unmapped (op : Byte) : decodeOpcode op = .unmapped op ↔ isUnmapped op = true := by
  revert op; decide

/-- Decoding never answers an ill-formed kind (R69). -/
theorem decodeOpcode_wf (op : Byte) : (decodeOpcode op).wf = true := by revert op; decide

/-- The kind decoded from a byte has that byte as its opcode. -/
@[simp] theorem opcode_decodeOpcode (op : Byte) : (decodeOpcode op).opcode = op := by revert op; decide

end Sys2Proof
end

