-- ==== Sys2Proof/Laws/Memory.lean ====
section
/-! SUPPORT. The laws of memory cells: a read after a write, the canonical form, and equality of canonical memories. -/

namespace Sys2Proof.Machine

open Config

/-! ### Cells -/

theorem lookupCell_insertCell (cells : List Host.Cell) (addr n : Nat) (v : Byte) :
    lookupCell (insertCell cells addr v) n = if addr = n then v else lookupCell cells n := by
  induction cells with
  | nil => simp [insertCell, lookupCell]
  | cons c rest ih =>
    obtain ⟨k, w⟩ := c
    simp only [insertCell]
    split
    · simp [lookupCell]
    · split
      · next h => subst h; by_cases hn : k = n <;> simp [lookupCell, hn]
      · next h =>
        simp only [lookupCell, ih]
        by_cases hk : k = n <;> by_cases ha : addr = n <;> simp_all

theorem lookupCell_eraseCell (cells : List Host.Cell) (addr n : Nat) :
    lookupCell (eraseCell cells addr) n = if addr = n then unlistedByte else lookupCell cells n := by
  induction cells with
  | nil => simp [eraseCell, lookupCell]
  | cons c rest ih =>
    obtain ⟨k, w⟩ := c
    simp only [eraseCell, List.filter_cons] at ih ⊢
    by_cases hk : k = addr
    · subst hk; simp only [ne_eq, not_true, decide_false, Bool.false_eq_true, if_false, ih, lookupCell]
      by_cases hn : k = n <;> simp [hn]
    · simp only [ne_eq, hk, not_false_eq_true, decide_true, if_true, lookupCell, ih]
      by_cases hn : k = n <;> by_cases ha : addr = n <;> simp_all

/-- A read after a store: the stored byte at its address, the old byte elsewhere (R43). -/
theorem lookupCell_storeCell (cells : List Host.Cell) (addr n : Nat) (v : Byte) :
    lookupCell (storeCell cells addr v) n = if addr = n then v else lookupCell cells n := by
  unfold storeCell
  split
  · next h => rw [lookupCell_eraseCell, h]
  · exact lookupCell_insertCell ..

/-- Every entry after an insertion is the new one or an old one at another address. -/
theorem mem_insertCell {cells : List Host.Cell} {addr : Nat} {v : Byte} {c : Host.Cell}
    (h : c ∈ insertCell cells addr v) : c = (addr, v) ∨ c ∈ cells := by
  induction cells with
  | nil => simpa [insertCell] using h
  | cons d rest ih =>
    simp only [insertCell] at h
    split at h
    · simpa using h
    · split at h
      · rcases List.mem_cons.mp h with h | h <;> simp [h]
      · rcases List.mem_cons.mp h with h | h
        · simp [h]
        · rcases ih h with h | h <;> simp [h]

theorem insertCell_rising {cells : List Host.Cell} (addr : Nat) (v : Byte)
    (h : cells.Pairwise fun c d => c.1 < d.1) :
    (insertCell cells addr v).Pairwise fun c d => c.1 < d.1 := by
  induction cells with
  | nil => simp [insertCell]
  | cons d rest ih =>
    obtain ⟨hd, hrest⟩ := List.pairwise_cons.mp h
    simp only [insertCell]
    split
    · next hlt =>
      refine List.pairwise_cons.mpr ⟨fun e he => ?_, h⟩
      rcases List.mem_cons.mp he with he | he
      · subst he; exact hlt
      · exact Nat.lt_trans hlt (hd e he)
    · split
      · next heq => subst heq; exact List.pairwise_cons.mpr ⟨hd, hrest⟩
      · refine List.pairwise_cons.mpr ⟨fun e he => ?_, ih hrest⟩
        rcases mem_insertCell he with he | he
        · subst he; simp only; omega
        · exact hd e he

/-! ### Memory -/

/-- A read after a write (R43): the value written there, every other cell as before. -/
theorem Memory.get_set (m : Memory) (addr n : Nat) (v : Byte) :
    (m.set addr v).get n = if addr = n then v else m.get n :=
  lookupCell_storeCell ..

theorem Memory.get_set_same (m : Memory) (addr : Nat) (v : Byte) : (m.set addr v).get addr = v := by
  simp [Memory.get_set]

theorem Memory.get_set_other (m : Memory) {addr n : Nat} (v : Byte) (h : addr ≠ n) :
    (m.set addr v).get n = m.get n := by
  simp [Memory.get_set, h]

@[simp] theorem Memory.set_size (m : Memory) (addr : Nat) (v : Byte) : (m.set addr v).size = m.size := rfl

/-- A write to a cell keeps the canonical form. -/
theorem Memory.set_wf {m : Memory} {addr : Nat} (v : Byte) (h : m.wf) (ha : m.valid addr) : (m.set addr v).wf := by
  obtain ⟨hs, hc⟩ := h
  unfold Memory.set storeCell
  split
  · exact ⟨hs.filter _, fun c hm => hc c (List.mem_filter.mp hm).1⟩
  · next hv =>
    refine ⟨insertCell_rising addr v hs, fun c hm => ?_⟩
    rcases mem_insertCell hm with rfl | hm
    · exact ⟨ha, hv⟩
    · exact hc c hm

/-- What the port's read answers (R42). -/
theorem Memory.read_eq_some {m : Memory} {addr : Nat} {b : Byte} :
    m.read addr = some b ↔ m.valid addr ∧ m.get addr = b := by
  simp [Memory.read]

theorem Memory.read_eq_none {m : Memory} {addr : Nat} : m.read addr = none ↔ ¬ m.valid addr := by
  simp [Memory.read]

/-- What the port's write answers (R43). -/
theorem Memory.write_eq_some {m m' : Memory} {addr : Nat} {v : Byte} :
    m.write addr v = some m' ↔ m.valid addr ∧ m.set addr v = m' := by
  simp [Memory.write]

theorem Memory.write_eq_none {m : Memory} {addr : Nat} {v : Byte} : m.write addr v = none ↔ ¬ m.valid addr := by
  simp [Memory.write]

/-- The port's write keeps the canonical form. -/
theorem Memory.write_wf {m m' : Memory} {addr : Nat} {v : Byte} (h : m.wf) (hw : m.write addr v = some m') :
    m'.wf := by
  obtain ⟨ha, rfl⟩ := Memory.write_eq_some.mp hw
  exact Memory.set_wf v h ha

/-- Placing an instruction's bytes keeps the canonical form. -/
theorem placeBytes_wf (bs : List Byte) (addr : Word) {m : Memory} (h : m.wf) : (placeBytes bs addr m).wf := by
  induction bs generalizing addr m with
  | nil => exact h
  | cons b rest ih =>
    apply ih
    split
    · next ha => exact Memory.set_wf b h ha
    · exact h

/-- Two canonical lists that read alike at every address are one list. -/
theorem cells_eq_of_lookup {l₁ l₂ : List Host.Cell}
    (h₁ : l₁.Pairwise fun c d => c.1 < d.1) (z₁ : ∀ c ∈ l₁, c.2 ≠ unlistedByte)
    (h₂ : l₂.Pairwise fun c d => c.1 < d.1) (z₂ : ∀ c ∈ l₂, c.2 ≠ unlistedByte)
    (h : ∀ n, lookupCell l₁ n = lookupCell l₂ n) : l₁ = l₂ := by
  have absent : ∀ {l : List Host.Cell} {n : Nat}, (∀ c ∈ l, n < c.1) → lookupCell l n = unlistedByte := by
    intro l n hl
    induction l with
    | nil => rfl
    | cons c rest ih =>
      have hc := hl c (by simp)
      have hne : c.1 ≠ n := by omega
      simp only [lookupCell, hne, if_false]
      exact ih fun d hd => hl d (by simp [hd])
  induction l₁ generalizing l₂ with
  | nil =>
    cases l₂ with
    | nil => rfl
    | cons c rest =>
      have := h c.1
      simp only [lookupCell, if_true] at this
      exact absurd this.symm (z₂ c (by simp))
  | cons c r₁ ih =>
    obtain ⟨hc, hr₁⟩ := List.pairwise_cons.mp h₁
    cases l₂ with
    | nil =>
      have := h c.1
      simp only [lookupCell, if_true] at this
      exact absurd this (z₁ c (by simp))
    | cons d r₂ =>
      obtain ⟨hd, hr₂⟩ := List.pairwise_cons.mp h₂
      have key : c.1 = d.1 := by
        rcases Nat.lt_trichotomy c.1 d.1 with hlt | heq | hgt
        · have e := h c.1
          rw [absent (l := d :: r₂) (n := c.1) (by
            intro x hx
            rcases List.mem_cons.mp hx with rfl | hx
            · exact hlt
            · exact Nat.lt_trans hlt (hd x hx))] at e
          simp only [lookupCell, if_true] at e
          exact absurd e (z₁ c (by simp))
        · exact heq
        · have e := h d.1
          rw [absent (l := c :: r₁) (n := d.1) (by
            intro x hx
            rcases List.mem_cons.mp hx with rfl | hx
            · exact hgt
            · exact Nat.lt_trans hgt (hc x hx))] at e
          simp only [lookupCell, if_true] at e
          exact absurd e.symm (z₂ d (by simp))
      have hv : c.2 = d.2 := by
        have e := h c.1
        simp only [lookupCell, if_true, ← key] at e
        exact e
      have hcd : c = d := Prod.ext key hv
      subst hcd
      congr 1
      apply ih hr₁ (fun x hx => z₁ x (by simp [hx])) hr₂ (fun x hx => z₂ x (by simp [hx]))
      intro n
      by_cases hn : c.1 = n
      · subst hn; rw [absent hc, absent hd]
      · have e := h n
        simpa only [lookupCell, hn, if_false] using e

end Sys2Proof.Machine
end

