-- ==== Sys2Proof/Laws/State.lean ====
section
/-! SUPPORT. One lemma per field per register write, and what a run of pseudocode does next. -/

namespace Sys2Proof.Machine

@[simp] theorem State.setPC_pc (s : State) (v : Word) : (s.setPC v).pc = v := rfl
@[simp] theorem State.setPC_sp (s : State) (v : Word) : (s.setPC v).sp = s.sp := rfl
@[simp] theorem State.setPC_hl (s : State) (v : Word) : (s.setPC v).hl = s.hl := rfl
@[simp] theorem State.setPC_a (s : State) (v : Word) : (s.setPC v).a = s.a := rfl
@[simp] theorem State.setPC_mem (s : State) (v : Word) : (s.setPC v).mem = s.mem := rfl
@[simp] theorem State.setPC_self (s : State) : s.setPC s.pc = s := rfl
@[simp] theorem State.setPC_setPC (s : State) (v w : Word) : (s.setPC v).setPC w = s.setPC w := rfl

@[simp] theorem State.setSP_pc (s : State) (v : Word) : (s.setSP v).pc = s.pc := rfl
@[simp] theorem State.setSP_sp (s : State) (v : Word) : (s.setSP v).sp = v := rfl
@[simp] theorem State.setSP_hl (s : State) (v : Word) : (s.setSP v).hl = s.hl := rfl
@[simp] theorem State.setSP_a (s : State) (v : Word) : (s.setSP v).a = s.a := rfl
@[simp] theorem State.setSP_mem (s : State) (v : Word) : (s.setSP v).mem = s.mem := rfl
@[simp] theorem State.setSP_self (s : State) : s.setSP s.sp = s := rfl
@[simp] theorem State.setSP_setSP (s : State) (v w : Word) : (s.setSP v).setSP w = s.setSP w := rfl

@[simp] theorem State.setHL_pc (s : State) (v : Word) : (s.setHL v).pc = s.pc := rfl
@[simp] theorem State.setHL_sp (s : State) (v : Word) : (s.setHL v).sp = s.sp := rfl
@[simp] theorem State.setHL_hl (s : State) (v : Word) : (s.setHL v).hl = v := rfl
@[simp] theorem State.setHL_a (s : State) (v : Word) : (s.setHL v).a = s.a := rfl
@[simp] theorem State.setHL_mem (s : State) (v : Word) : (s.setHL v).mem = s.mem := rfl
@[simp] theorem State.setHL_self (s : State) : s.setHL s.hl = s := rfl
@[simp] theorem State.setHL_setHL (s : State) (v w : Word) : (s.setHL v).setHL w = s.setHL w := rfl

@[simp] theorem State.setA_pc (s : State) (v : Byte) : (s.setA v).pc = s.pc := rfl
@[simp] theorem State.setA_sp (s : State) (v : Byte) : (s.setA v).sp = s.sp := rfl
@[simp] theorem State.setA_hl (s : State) (v : Byte) : (s.setA v).hl = s.hl := rfl
@[simp] theorem State.setA_a (s : State) (v : Byte) : (s.setA v).a = v := rfl
@[simp] theorem State.setA_mem (s : State) (v : Byte) : (s.setA v).mem = s.mem := rfl
@[simp] theorem State.setA_self (s : State) : s.setA s.a = s := rfl
@[simp] theorem State.setA_setA (s : State) (v w : Byte) : (s.setA v).setA w = s.setA w := rfl

@[simp] theorem State.setMem_pc (s : State) (v : Memory) : (s.setMem v).pc = s.pc := rfl
@[simp] theorem State.setMem_sp (s : State) (v : Memory) : (s.setMem v).sp = s.sp := rfl
@[simp] theorem State.setMem_hl (s : State) (v : Memory) : (s.setMem v).hl = s.hl := rfl
@[simp] theorem State.setMem_a (s : State) (v : Memory) : (s.setMem v).a = s.a := rfl
@[simp] theorem State.setMem_mem (s : State) (v : Memory) : (s.setMem v).mem = v := rfl
@[simp] theorem State.setMem_self (s : State) : s.setMem s.mem = s := rfl
@[simp] theorem State.setMem_setMem (s : State) (v w : Memory) : (s.setMem v).setMem w = s.setMem w := rfl

/-! The view `H` and `L` of a state depend on `HL` alone (R24). -/

@[simp] theorem State.setPC_h (s : State) (v : Word) : (s.setPC v).h = s.h := rfl
@[simp] theorem State.setPC_l (s : State) (v : Word) : (s.setPC v).l = s.l := rfl
@[simp] theorem State.setSP_h (s : State) (v : Word) : (s.setSP v).h = s.h := rfl
@[simp] theorem State.setSP_l (s : State) (v : Word) : (s.setSP v).l = s.l := rfl

/-! Reading a cell looks at memory alone. -/

@[simp] theorem State.setPC_byteAt (s : State) (v x : Word) : (s.setPC v).byteAt x = s.byteAt x := rfl
@[simp] theorem State.setSP_byteAt (s : State) (v x : Word) : (s.setSP v).byteAt x = s.byteAt x := rfl
@[simp] theorem State.setHL_byteAt (s : State) (v x : Word) : (s.setHL v).byteAt x = s.byteAt x := rfl
@[simp] theorem State.setA_byteAt (s : State) (v : Byte) (x : Word) : (s.setA v).byteAt x = s.byteAt x := rfl
@[simp] theorem State.setMem_byteAt (s : State) (m : Memory) (x : Word) :
    (s.setMem m).byteAt x = m.get x.toNat := rfl

/-! Runs of pseudocode (R7). -/

@[simp] theorem Ran.ok_andThen {α β : Type} (v : α) (s : State) (k : α → State → Ran β) :
    (Ran.ok v s).andThen k = k v s := rfl
@[simp] theorem Ran.stop_andThen {α β : Type} (f : Fault) (k : α → State → Ran β) :
    (Ran.stop f : Ran α).andThen k = .stop f := rfl
@[simp] theorem Ran.ok_toOutcome (v : Unit) (s : State) : (Ran.ok v s).toOutcome = .next s := rfl
@[simp] theorem Ran.stop_toOutcome (f : Fault) : (Ran.stop f : Ran Unit).toOutcome = .fault f := rfl

/-- A chain of statements that ends ran every statement to its end. -/
theorem Ran.andThen_eq_ok {α β : Type} {r : Ran α} {k : α → State → Ran β} {w : β} {t : State}
    (h : r.andThen k = .ok w t) : ∃ v s, r = .ok v s ∧ k v s = .ok w t := by
  cases r with
  | ok v s => exact ⟨v, s, rfl, h⟩
  | stop f => cases h

/-- A chain of statements that stops did so at its first statement that raised. -/
theorem Ran.andThen_eq_stop {α β : Type} {r : Ran α} {k : α → State → Ran β} {f : Fault}
    (h : r.andThen k = .stop f) : r = .stop f ∨ ∃ v s, r = .ok v s ∧ k v s = .stop f := by
  cases r with
  | ok v s => exact .inr ⟨v, s, rfl, h⟩
  | stop g => exact .inl (by simpa using h)

end Sys2Proof.Machine
end

