-- ==== Sys2Proof/Laws/Ops.lean ====
section
/-! SUPPORT. One lemma per shared operation and case: what it answers, and the state it leaves when it raises (R157). The
operations are not unfolded outside this file. -/

namespace Sys2Proof.Machine

/-! ### The memory primitives (R42, R43) -/

theorem memRead_of_valid {s : State} {addr : Word} (h : s.valid addr) : memRead addr s = .ok (s.byteAt addr) s := by
  simp [memRead, Memory.read, h, State.byteAt]

theorem memRead_of_invalid {s : State} {addr : Word} (h : ¬ s.valid addr) :
    memRead addr s = .stop (.outOfRange addr .read s) := by
  simp [memRead, Memory.read, h, raiseOutOfRange]

theorem memWrite_of_valid {s : State} {addr : Word} (v : Byte) (h : s.valid addr) :
    memWrite addr v s = .ok () (s.setMem (s.mem.set addr.toNat v)) := by
  simp [memWrite, Memory.write, h]

theorem memWrite_of_invalid {s : State} {addr : Word} (v : Byte) (h : ¬ s.valid addr) :
    memWrite addr v s = .stop (.outOfRange addr .write s) := by
  simp [memWrite, Memory.write, h, raiseOutOfRange]

/-- A store does not change which addresses are cells. -/
@[simp] theorem State.valid_setMem_set (s : State) (n : Nat) (v : Byte) (addr : Word) :
    (s.setMem (s.mem.set n v)).valid addr ↔ s.valid addr := Iff.rfl

/-! ### Fetch (R81, R62, R63) -/

theorem fetch8_of_valid {s : State} (h : s.valid s.pc) : fetch8 s = .ok (s.byteAt s.pc) (s.setPC (s.pc + 1)) := by
  simp [fetch8, memRead_of_valid h]

theorem fetch8_of_invalid {s : State} (h : ¬ s.valid s.pc) : fetch8 s = .stop (.outOfRange s.pc .read s) := by
  simp [fetch8, memRead_of_invalid h]

theorem fetchImm16_of_valid {s : State} (h₁ : s.valid s.pc) (h₂ : s.valid (s.pc + 1)) :
    fetchImm16 s = .ok (joinBytes (s.byteAt s.pc) (s.byteAt (s.pc + 1))) (s.setPC (s.pc + 2)) := by
  have h : (s.setPC (s.pc + 1)).valid (s.setPC (s.pc + 1)).pc := h₂
  simp only [fetchImm16, fetch8_of_valid h₁, Ran.ok_andThen, fetch8_of_valid h]
  simp [BitVec.add_assoc]

theorem fetchImm16_of_first_invalid {s : State} (h : ¬ s.valid s.pc) :
    fetchImm16 s = .stop (.outOfRange s.pc .read s) := by
  simp [fetchImm16, fetch8_of_invalid h]

theorem fetchImm16_of_second_invalid {s : State} (h₁ : s.valid s.pc) (h₂ : ¬ s.valid (s.pc + 1)) :
    fetchImm16 s = .stop (.outOfRange (s.pc + 1) .read (s.setPC (s.pc + 1))) := by
  have h : ¬ (s.setPC (s.pc + 1)).valid (s.setPC (s.pc + 1)).pc := h₂
  simp only [fetchImm16, fetch8_of_valid h₁, Ran.ok_andThen, fetch8_of_invalid h, Ran.stop_andThen, State.setPC_pc]

/-! ### The stack (R130, R131) -/

theorem push8_of_valid {s : State} (v : Byte) (h : s.valid (s.sp - 1)) :
    push8 v s = .ok () ((s.setSP (s.sp - 1)).setMem (s.mem.set (s.sp - 1).toNat v)) :=
  memWrite_of_valid (s := s.setSP (s.sp - 1)) v h

theorem push8_of_invalid {s : State} (v : Byte) (h : ¬ s.valid (s.sp - 1)) :
    push8 v s = .stop (.outOfRange (s.sp - 1) .write (s.setSP (s.sp - 1))) :=
  memWrite_of_invalid (s := s.setSP (s.sp - 1)) v h

/-- The state between the two pushes of a word: the high byte stored, `SP` one lower. -/
def State.pushedHigh (s : State) (v : Word) : State :=
  (s.setSP (s.sp - 1)).setMem (s.mem.set (s.sp - 1).toNat (hiByte v))

/-- The state after the push of a word that does not raise. -/
def State.pushed (s : State) (v : Word) : State :=
  (s.setSP (s.sp - 2)).setMem ((s.mem.set (s.sp - 1).toNat (hiByte v)).set (s.sp - 2).toNat (loByte v))

theorem sub_one_sub_one (x : Word) : x - 1 - 1 = x - 2 := by
  rw [BitVec.sub_sub]; rfl

theorem push16_of_valid {s : State} (v : Word) (h₁ : s.valid (s.sp - 1)) (h₂ : s.valid (s.sp - 2)) :
    push16 v s = .ok () (s.pushed v) := by
  simp only [push16, push8_of_valid _ h₁, Ran.ok_andThen]
  rw [push8_of_valid]
  · simp only [State.setMem_sp, State.setSP_sp, sub_one_sub_one]; rfl
  · simp only [State.setMem_sp, State.setSP_sp, sub_one_sub_one]; exact h₂

theorem push16_of_first_invalid {s : State} (v : Word) (h : ¬ s.valid (s.sp - 1)) :
    push16 v s = .stop (.outOfRange (s.sp - 1) .write (s.setSP (s.sp - 1))) := by
  simp [push16, push8_of_invalid _ h]

theorem push16_of_second_invalid {s : State} (v : Word) (h₁ : s.valid (s.sp - 1)) (h₂ : ¬ s.valid (s.sp - 2)) :
    push16 v s = .stop (.outOfRange (s.sp - 2) .write ((s.pushedHigh v).setSP (s.sp - 2))) := by
  simp only [push16, push8_of_valid _ h₁, Ran.ok_andThen]
  rw [push8_of_invalid]
  · simp only [State.setMem_sp, State.setSP_sp, sub_one_sub_one]; rfl
  · simp only [State.setMem_sp, State.setSP_sp, sub_one_sub_one]; exact h₂

theorem pop16_of_valid {s : State} (h₁ : s.valid s.sp) (h₂ : s.valid (s.sp + 1)) :
    pop16 s = .ok (joinBytes (s.byteAt (s.sp + 1)) (s.byteAt s.sp)) (s.setSP (s.sp + 2)) := by
  have h : (s.setSP (s.sp + 1)).valid (s.setSP (s.sp + 1)).sp := h₂
  simp only [pop16, pop8, memRead_of_valid h₁, Ran.ok_andThen, memRead_of_valid h]
  simp [BitVec.add_assoc]

theorem pop16_of_first_invalid {s : State} (h : ¬ s.valid s.sp) : pop16 s = .stop (.outOfRange s.sp .read s) := by
  simp [pop16, pop8, memRead_of_invalid h]

theorem pop16_of_second_invalid {s : State} (h₁ : s.valid s.sp) (h₂ : ¬ s.valid (s.sp + 1)) :
    pop16 s = .stop (.outOfRange (s.sp + 1) .read (s.setSP (s.sp + 1))) := by
  have h : ¬ (s.setSP (s.sp + 1)).valid (s.sp + 1) := h₂
  simp only [pop16, pop8, memRead_of_valid h₁, Ran.ok_andThen, memRead_of_invalid h, Ran.stop_andThen, State.setSP_sp]

/-! ### The pushed word in memory (R47) -/

@[simp] theorem State.pushed_pc (s : State) (v : Word) : (s.pushed v).pc = s.pc := rfl
@[simp] theorem State.pushed_sp (s : State) (v : Word) : (s.pushed v).sp = s.sp - 2 := rfl
@[simp] theorem State.pushed_hl (s : State) (v : Word) : (s.pushed v).hl = s.hl := rfl
@[simp] theorem State.pushed_a (s : State) (v : Word) : (s.pushed v).a = s.a := rfl
@[simp] theorem State.pushed_size (s : State) (v : Word) : (s.pushed v).mem.size = s.mem.size := rfl
@[simp] theorem State.pushedHigh_pc (s : State) (v : Word) : (s.pushedHigh v).pc = s.pc := rfl
@[simp] theorem State.pushedHigh_sp (s : State) (v : Word) : (s.pushedHigh v).sp = s.sp - 1 := rfl
@[simp] theorem State.pushedHigh_hl (s : State) (v : Word) : (s.pushedHigh v).hl = s.hl := rfl
@[simp] theorem State.pushedHigh_a (s : State) (v : Word) : (s.pushedHigh v).a = s.a := rfl
@[simp] theorem State.pushedHigh_size (s : State) (v : Word) : (s.pushedHigh v).mem.size = s.mem.size := rfl

/-- The two stack slots are two addresses. -/
theorem stack_slots_ne (x : Word) : (x - 1).toNat ≠ (x - 2).toNat := by
  intro h
  have := BitVec.eq_of_toNat_eq h
  bv_omega

/-- What a byte of memory reads after a push: the low byte at `SP - 2`, the high byte at `SP - 1`, the old byte
elsewhere (R47, R130). -/
theorem State.get_pushed (s : State) (v : Word) (n : Nat) :
    (s.pushed v).mem.get n =
      if (s.sp - 2).toNat = n then loByte v else if (s.sp - 1).toNat = n then hiByte v else s.mem.get n := by
  simp only [State.pushed, State.setMem_mem, Memory.get_set]

theorem State.get_pushedHigh (s : State) (v : Word) (n : Nat) :
    (s.pushedHigh v).mem.get n = if (s.sp - 1).toNat = n then hiByte v else s.mem.get n := by
  simp only [State.pushedHigh, State.setMem_mem, Memory.get_set]

end Sys2Proof.Machine
end

