-- ==== Sys2Proof/Laws/Meanings.lean ====
section
/-! SUPPORT. One lemma per case of each meaning that makes memory accesses: what it answers, in terms of the operations'
laws, and everything it can answer. -/

namespace Sys2Proof.Machine

/-- Everything a push of a word can do (R130). -/
theorem push16_cases (v : Word) (s : State) :
    (s.valid (s.sp - 1) ∧ s.valid (s.sp - 2) ∧ push16 v s = .ok () (s.pushed v)) ∨
      (¬ s.valid (s.sp - 1) ∧ push16 v s = .stop (.outOfRange (s.sp - 1) .write (s.setSP (s.sp - 1)))) ∨
      (s.valid (s.sp - 1) ∧ ¬ s.valid (s.sp - 2) ∧
        push16 v s = .stop (.outOfRange (s.sp - 2) .write ((s.pushedHigh v).setSP (s.sp - 2)))) := by
  by_cases h₁ : s.valid (s.sp - 1)
  · by_cases h₂ : s.valid (s.sp - 2)
    · exact .inl ⟨h₁, h₂, push16_of_valid v h₁ h₂⟩
    · exact .inr (.inr ⟨h₁, h₂, push16_of_second_invalid v h₁ h₂⟩)
  · exact .inr (.inl ⟨h₁, push16_of_first_invalid v h₁⟩)

/-- Everything a pop of a word can do (R131). -/
theorem pop16_cases (s : State) :
    (s.valid s.sp ∧ s.valid (s.sp + 1) ∧
        pop16 s = .ok (joinBytes (s.byteAt (s.sp + 1)) (s.byteAt s.sp)) (s.setSP (s.sp + 2))) ∨
      (¬ s.valid s.sp ∧ pop16 s = .stop (.outOfRange s.sp .read s)) ∨
      (s.valid s.sp ∧ ¬ s.valid (s.sp + 1) ∧
        pop16 s = .stop (.outOfRange (s.sp + 1) .read (s.setSP (s.sp + 1)))) := by
  by_cases h₁ : s.valid s.sp
  · by_cases h₂ : s.valid (s.sp + 1)
    · exact .inl ⟨h₁, h₂, pop16_of_valid h₁ h₂⟩
    · exact .inr (.inr ⟨h₁, h₂, pop16_of_second_invalid h₁ h₂⟩)
  · exact .inr (.inl ⟨h₁, pop16_of_first_invalid h₁⟩)

/-- Everything the fetch of a 16-bit immediate can do (R63). -/
theorem fetchImm16_cases (s : State) :
    (s.valid s.pc ∧ s.valid (s.pc + 1) ∧
        fetchImm16 s = .ok (joinBytes (s.byteAt s.pc) (s.byteAt (s.pc + 1))) (s.setPC (s.pc + 2))) ∨
      (¬ s.valid s.pc ∧ fetchImm16 s = .stop (.outOfRange s.pc .read s)) ∨
      (s.valid s.pc ∧ ¬ s.valid (s.pc + 1) ∧
        fetchImm16 s = .stop (.outOfRange (s.pc + 1) .read (s.setPC (s.pc + 1)))) := by
  by_cases h₁ : s.valid s.pc
  · by_cases h₂ : s.valid (s.pc + 1)
    · exact .inl ⟨h₁, h₂, fetchImm16_of_valid h₁ h₂⟩
    · exact .inr (.inr ⟨h₁, h₂, fetchImm16_of_second_invalid h₁ h₂⟩)
  · exact .inr (.inl ⟨h₁, fetchImm16_of_first_invalid h₁⟩)

/-- `LD HL,nn` is its fetch and one register write (R100). -/
theorem execLdHLnn_of_fetch {s t : State} {nn : Word} (h : fetchImm16 s = .ok nn t) :
    execLdHLnn s = .next (t.setHL nn) := by
  simp [execLdHLnn, h]

theorem execLdHLnn_of_stop {s : State} {f : Fault} (h : fetchImm16 s = .stop f) : execLdHLnn s = .fault f := by
  simp [execLdHLnn, h]

/-- `LD A,n` is its fetch and one register write (R101). -/
theorem execLdAn_of_fetch {s t : State} {n : Byte} (h : fetch8 s = .ok n t) : execLdAn s = .next (t.setA n) := by
  simp [execLdAn, fetchImm8, h]

theorem execLdAn_of_stop {s : State} {f : Fault} (h : fetch8 s = .stop f) : execLdAn s = .fault f := by
  simp [execLdAn, fetchImm8, h]

/-- `PUSH HL` is one push (R132). -/
theorem execPushHL_of_push {s t : State} (h : push16 s.hl s = .ok () t) : execPushHL s = .next t := by
  simp [execPushHL, h]

theorem execPushHL_of_stop {s : State} {f : Fault} (h : push16 s.hl s = .stop f) : execPushHL s = .fault f := by
  simp [execPushHL, h]

/-- `POP HL` is one pop and one register write (R133). -/
theorem execPopHL_of_pop {s t : State} {v : Word} (h : pop16 s = .ok v t) : execPopHL s = .next (t.setHL v) := by
  simp [execPopHL, h]

theorem execPopHL_of_stop {s : State} {f : Fault} (h : pop16 s = .stop f) : execPopHL s = .fault f := by
  simp [execPopHL, h]

/-- `CALL nn` is one push, then the fetch of its operand, then one register write (R140). -/
theorem execCallnn_of_push {s t u : State} {nn : Word} (h : push16 (returnAddress s.pc) s = .ok () t)
    (hf : fetchImm16 t = .ok nn u) : execCallnn s = .next (u.setPC nn) := by
  simp [execCallnn, h, hf]

theorem execCallnn_of_push_stop {s : State} {f : Fault} (h : push16 (returnAddress s.pc) s = .stop f) :
    execCallnn s = .fault f := by
  simp [execCallnn, h]

theorem execCallnn_of_fetch_stop {s t : State} {f : Fault} (h : push16 (returnAddress s.pc) s = .ok () t)
    (hf : fetchImm16 t = .stop f) : execCallnn s = .fault f := by
  simp [execCallnn, h, hf]

/-- `RET` is one pop and one register write (R141). -/
theorem execRet_of_pop {s t : State} {v : Word} (h : pop16 s = .ok v t) : execRet s = .next (t.setPC v) := by
  simp [execRet, h]

theorem execRet_of_stop {s : State} {f : Fault} (h : pop16 s = .stop f) : execRet s = .fault f := by
  simp [execRet, h]

end Sys2Proof.Machine
end

