-- ==== Sys2Proof/Laws/Exec.lean ====
section
/-! SUPPORT. The inversion lemmas of `exec`: everything an execution that completes or faults can have done. Claims over
all instructions are derived from these, and no meaning is unfolded again. -/

namespace Sys2Proof.Machine

/-- A push keeps the canonical form of memory. -/
theorem State.pushed_wf {s : State} (v : Word) (hw : s.mem.wf) (h1 : s.valid (s.sp - 1)) (h2 : s.valid (s.sp - 2)) :
    (s.pushed v).mem.wf :=
  Memory.set_wf _ (Memory.set_wf _ hw h1) h2

/-- What an execution of each kind that completes was, and the state it leaves. -/
def CompletedAs (i : Instr) (s t : State) : Prop :=
  match i with
  | .ldHLnn =>
    s.valid s.pc ∧ s.valid (s.pc + 1) ∧
      t = { s with hl := joinBytes (s.byteAt s.pc) (s.byteAt (s.pc + 1)), pc := s.pc + 2 }
  | .ldAn => s.valid s.pc ∧ t = { s with a := s.byteAt s.pc, pc := s.pc + 1 }
  | .incA => t = { s with a := s.a + 1 }
  | .decA => t = { s with a := s.a - 1 }
  | .jpHL => t = { s with pc := s.hl }
  | .pushHL => s.valid (s.sp - 1) ∧ s.valid (s.sp - 2) ∧ t = s.pushed s.hl
  | .popHL =>
    s.valid s.sp ∧ s.valid (s.sp + 1) ∧
      t = { s with hl := joinBytes (s.byteAt (s.sp + 1)) (s.byteAt s.sp), sp := s.sp + 2 }
  | .callnn =>
    s.valid (s.sp - 1) ∧ s.valid (s.sp - 2) ∧ s.valid s.pc ∧ s.valid (s.pc + 1) ∧
      t = { s.pushed (s.pc + 2) with
        pc := joinBytes ((s.pushed (s.pc + 2)).byteAt s.pc) ((s.pushed (s.pc + 2)).byteAt (s.pc + 1)) }
  | .ret =>
    s.valid s.sp ∧ s.valid (s.sp + 1) ∧
      t = { s with pc := joinBytes (s.byteAt (s.sp + 1)) (s.byteAt s.sp), sp := s.sp + 2 }
  | .unmapped _ => t = s

/-- Everything an execution that completes can have done, kind by kind: which addresses were cells, and the state it
leaves. Memory keeps its size and its canonical form. -/
theorem exec_eq_next {i : Instr} {s t : State} (h : exec i s = .next t) :
    t.mem.size = s.mem.size ∧ (s.mem.wf → t.mem.wf) ∧
      CompletedAs i s t := by
  cases i with
  | ldHLnn =>
    obtain ⟨h1, h2, e⟩ | ⟨h1, e⟩ | ⟨h1, h2, e⟩ := fetchImm16_cases s
    · have := (execLdHLnn_of_fetch e).symm.trans h; cases this; exact ⟨rfl, id, h1, h2, rfl⟩
    · cases (execLdHLnn_of_stop e).symm.trans h
    · cases (execLdHLnn_of_stop e).symm.trans h
  | ldAn =>
    by_cases h1 : s.valid s.pc
    · cases (execLdAn_of_fetch (fetch8_of_valid h1)).symm.trans h; exact ⟨rfl, id, h1, rfl⟩
    · cases (execLdAn_of_stop (fetch8_of_invalid h1)).symm.trans h
  | incA => cases h; exact ⟨rfl, id, rfl⟩
  | decA => cases h; exact ⟨rfl, id, rfl⟩
  | jpHL => cases h; exact ⟨rfl, id, rfl⟩
  | pushHL =>
    obtain ⟨h1, h2, e⟩ | ⟨h1, e⟩ | ⟨h1, h2, e⟩ := push16_cases s.hl s
    · cases (execPushHL_of_push e).symm.trans h; exact ⟨rfl, fun hw => State.pushed_wf _ hw h1 h2, h1, h2, rfl⟩
    · cases (execPushHL_of_stop e).symm.trans h
    · cases (execPushHL_of_stop e).symm.trans h
  | popHL =>
    obtain ⟨h1, h2, e⟩ | ⟨h1, e⟩ | ⟨h1, h2, e⟩ := pop16_cases s
    · cases (execPopHL_of_pop e).symm.trans h; exact ⟨rfl, id, h1, h2, rfl⟩
    · cases (execPopHL_of_stop e).symm.trans h
    · cases (execPopHL_of_stop e).symm.trans h
  | callnn =>
    obtain ⟨h1, h2, e⟩ | ⟨h1, e⟩ | ⟨h1, h2, e⟩ := push16_cases (returnAddress s.pc) s
    · obtain ⟨h3, h4, e'⟩ | ⟨h3, e'⟩ | ⟨h3, h4, e'⟩ := fetchImm16_cases (s.pushed (returnAddress s.pc))
      · cases (execCallnn_of_push e e').symm.trans h; exact ⟨rfl, fun hw => State.pushed_wf _ hw h1 h2, h1, h2, h3, h4, rfl⟩
      · cases (execCallnn_of_fetch_stop e e').symm.trans h
      · cases (execCallnn_of_fetch_stop e e').symm.trans h
    · cases (execCallnn_of_push_stop e).symm.trans h
    · cases (execCallnn_of_push_stop e).symm.trans h
  | ret =>
    obtain ⟨h1, h2, e⟩ | ⟨h1, e⟩ | ⟨h1, h2, e⟩ := pop16_cases s
    · cases (execRet_of_pop e).symm.trans h; exact ⟨rfl, id, h1, h2, rfl⟩
    · cases (execRet_of_stop e).symm.trans h
    · cases (execRet_of_stop e).symm.trans h
  | unmapped op => cases h; exact ⟨rfl, id, rfl⟩

/-- What an execution of each kind that faults was: the access, and the state it leaves. -/
def FaultedAs (i : Instr) (s : State) (addr : Word) (kind : AccessKind) (t : State) : Prop :=
  match i with
  | .ldHLnn =>
    kind = .read ∧ (addr = s.pc ∧ t = s ∨ s.valid s.pc ∧ addr = s.pc + 1 ∧ t = { s with pc := s.pc + 1 })
  | .ldAn => kind = .read ∧ addr = s.pc ∧ t = s
  | .pushHL =>
    kind = .write ∧
      (addr = s.sp - 1 ∧ t = s.setSP (s.sp - 1) ∨
        s.valid (s.sp - 1) ∧ addr = s.sp - 2 ∧ t = (s.pushedHigh s.hl).setSP (s.sp - 2))
  | .popHL =>
    kind = .read ∧ (addr = s.sp ∧ t = s ∨ s.valid s.sp ∧ addr = s.sp + 1 ∧ t = { s with sp := s.sp + 1 })
  | .ret =>
    kind = .read ∧ (addr = s.sp ∧ t = s ∨ s.valid s.sp ∧ addr = s.sp + 1 ∧ t = { s with sp := s.sp + 1 })
  | .callnn =>
    (kind = .write ∧
      (addr = s.sp - 1 ∧ t = s.setSP (s.sp - 1) ∨
        s.valid (s.sp - 1) ∧ addr = s.sp - 2 ∧ t = (s.pushedHigh (s.pc + 2)).setSP (s.sp - 2))) ∨
    (kind = .read ∧ s.valid (s.sp - 1) ∧ s.valid (s.sp - 2) ∧
      (addr = s.pc ∧ t = s.pushed (s.pc + 2) ∨
        s.valid s.pc ∧ addr = s.pc + 1 ∧ t = (s.pushed (s.pc + 2)).setPC (s.pc + 1)))
  | .incA       => False
  | .decA       => False
  | .jpHL       => False
  | .unmapped _ => False

/-- Everything an execution that faults can have done, kind by kind: the faulting address is no cell, `HL` and `A` are as
before, and the state left has the effects before the faulting access (R157). -/
theorem exec_eq_fault {i : Instr} {s t : State} {addr : Word} {kind : AccessKind}
    (h : exec i s = .fault (.outOfRange addr kind t)) :
    t.mem.size = s.mem.size ∧ (s.mem.wf → t.mem.wf) ∧ ¬ s.valid addr ∧ t.hl = s.hl ∧ t.a = s.a ∧
      FaultedAs i s addr kind t := by
  cases i with
  | ldHLnn =>
    obtain ⟨h1, h2, e⟩ | ⟨h1, e⟩ | ⟨h1, h2, e⟩ := fetchImm16_cases s
    · cases (execLdHLnn_of_fetch e).symm.trans h
    · cases (execLdHLnn_of_stop e).symm.trans h; exact ⟨rfl, id, h1, rfl, rfl, rfl, .inl ⟨rfl, rfl⟩⟩
    · cases (execLdHLnn_of_stop e).symm.trans h; exact ⟨rfl, id, h2, rfl, rfl, rfl, .inr ⟨h1, rfl, rfl⟩⟩
  | ldAn =>
    by_cases h1 : s.valid s.pc
    · cases (execLdAn_of_fetch (fetch8_of_valid h1)).symm.trans h
    · cases (execLdAn_of_stop (fetch8_of_invalid h1)).symm.trans h; exact ⟨rfl, id, h1, rfl, rfl, rfl, rfl, rfl⟩
  | incA => cases h
  | decA => cases h
  | jpHL => cases h
  | pushHL =>
    obtain ⟨h1, h2, e⟩ | ⟨h1, e⟩ | ⟨h1, h2, e⟩ := push16_cases s.hl s
    · cases (execPushHL_of_push e).symm.trans h
    · cases (execPushHL_of_stop e).symm.trans h; exact ⟨rfl, id, h1, rfl, rfl, rfl, .inl ⟨rfl, rfl⟩⟩
    · cases (execPushHL_of_stop e).symm.trans h; exact ⟨rfl, fun hw => Memory.set_wf _ hw h1, h2, rfl, rfl, rfl, .inr ⟨h1, rfl, rfl⟩⟩
  | popHL =>
    obtain ⟨h1, h2, e⟩ | ⟨h1, e⟩ | ⟨h1, h2, e⟩ := pop16_cases s
    · cases (execPopHL_of_pop e).symm.trans h
    · cases (execPopHL_of_stop e).symm.trans h; exact ⟨rfl, id, h1, rfl, rfl, rfl, .inl ⟨rfl, rfl⟩⟩
    · cases (execPopHL_of_stop e).symm.trans h; exact ⟨rfl, id, h2, rfl, rfl, rfl, .inr ⟨h1, rfl, rfl⟩⟩
  | callnn =>
    obtain ⟨h1, h2, e⟩ | ⟨h1, e⟩ | ⟨h1, h2, e⟩ := push16_cases (returnAddress s.pc) s
    · obtain ⟨h3, h4, e'⟩ | ⟨h3, e'⟩ | ⟨h3, h4, e'⟩ := fetchImm16_cases (s.pushed (returnAddress s.pc))
      · cases (execCallnn_of_push e e').symm.trans h
      · cases (execCallnn_of_fetch_stop e e').symm.trans h; exact ⟨rfl, fun hw => State.pushed_wf _ hw h1 h2, h3, rfl, rfl, .inr ⟨rfl, h1, h2, .inl ⟨rfl, rfl⟩⟩⟩
      · cases (execCallnn_of_fetch_stop e e').symm.trans h; exact ⟨rfl, fun hw => State.pushed_wf _ hw h1 h2, h4, rfl, rfl, .inr ⟨rfl, h1, h2, .inr ⟨h3, rfl, rfl⟩⟩⟩
    · cases (execCallnn_of_push_stop e).symm.trans h; exact ⟨rfl, id, h1, rfl, rfl, .inl ⟨rfl, .inl ⟨rfl, rfl⟩⟩⟩
    · cases (execCallnn_of_push_stop e).symm.trans h; exact ⟨rfl, fun hw => Memory.set_wf _ hw h1, h2, rfl, rfl, .inl ⟨rfl, .inr ⟨h1, rfl, rfl⟩⟩⟩
  | ret =>
    obtain ⟨h1, h2, e⟩ | ⟨h1, e⟩ | ⟨h1, h2, e⟩ := pop16_cases s
    · cases (execRet_of_pop e).symm.trans h
    · cases (execRet_of_stop e).symm.trans h; exact ⟨rfl, id, h1, rfl, rfl, rfl, .inl ⟨rfl, rfl⟩⟩
    · cases (execRet_of_stop e).symm.trans h; exact ⟨rfl, id, h2, rfl, rfl, rfl, .inr ⟨h1, rfl, rfl⟩⟩
  | unmapped op => cases h

/-- No kind is refused. -/
theorem exec_ne_refused (i : Instr) (s : State) (r : Refusal) : exec i s ≠ .refused r := by
  have key : ∀ x : Ran Unit, x.toOutcome ≠ .refused r := by
    intro x
    cases x <;> simp [Ran.toOutcome]
  cases i <;> first | exact key _ | (intro h; cases h)

end Sys2Proof.Machine
end

