-- ==== Sys2Proof/Laws/Frame.lean ====
section
/-! SUPPORT. What a store and a push leave alone, and what they leave where they stored. -/

namespace Sys2Proof.Machine

/-- A store changes its own cell only (R43). -/
theorem sameMemoryBut_set (s : State) (x : Word) (v : Byte) :
    SameMemoryBut [x] s (s.setMem (s.mem.set x.toNat v)) :=
  ⟨rfl, fun _ hn => Memory.get_set_other _ _ (hn x (by simp))⟩

/-- A push of a word changes its two slots only (R130). -/
theorem sameMemoryBut_pushed (s : State) (v : Word) : SameMemoryBut [s.sp - 1, s.sp - 2] s (s.pushed v) := by
  refine ⟨rfl, fun n hn => ?_⟩
  rw [State.get_pushed, if_neg (hn _ (by simp)), if_neg (hn _ (by simp))]

theorem sameMemoryBut_pushedHigh (s : State) (v : Word) : SameMemoryBut [s.sp - 1] s (s.pushedHigh v) := by
  refine ⟨rfl, fun n hn => ?_⟩
  rw [State.get_pushedHigh, if_neg (hn _ (by simp))]

/-- A larger list of excepted addresses says less. -/
theorem SameMemoryBut.mono {l l' : List Word} {s t : State} (h : SameMemoryBut l s t) (hl : ∀ x ∈ l, x ∈ l') :
    SameMemoryBut l' s t :=
  ⟨h.1, fun n hn => h.2 n fun x hx => hn x (hl x hx)⟩

/-- An equal memory is an unchanged memory. -/
theorem sameMemoryBut_of_eq {s t : State} (l : List Word) (h : t.mem = s.mem) : SameMemoryBut l s t :=
  ⟨by rw [h], fun _ _ => by rw [h]⟩

theorem State.pushed_byteAt_high (s : State) (v : Word) : (s.pushed v).byteAt (s.sp - 1) = hiByte v := by
  rw [State.byteAt, State.get_pushed, if_neg (Ne.symm (stack_slots_ne s.sp)), if_pos rfl]

theorem State.pushed_byteAt_low (s : State) (v : Word) : (s.pushed v).byteAt (s.sp - 2) = loByte v := by
  rw [State.byteAt, State.get_pushed, if_pos rfl]

theorem State.pushedHigh_byteAt_high (s : State) (v : Word) : (s.pushedHigh v).byteAt (s.sp - 1) = hiByte v := by
  rw [State.byteAt, State.get_pushedHigh, if_pos rfl]

theorem State.pushed_byteAt_other (s : State) (v : Word) {x : Word} (h1 : s.sp - 1 ≠ x) (h2 : s.sp - 2 ≠ x) :
    (s.pushed v).byteAt x = s.byteAt x := by
  rw [State.byteAt, State.get_pushed, if_neg, if_neg]
  · rfl
  · exact fun h => h1 (BitVec.eq_of_toNat_eq h)
  · exact fun h => h2 (BitVec.eq_of_toNat_eq h)

/-! ### The code at an address -/

theorem codeAt_of_valid {m : Memory} {n : Nat} {x : Word} (h : m.valid x.toNat) :
    codeAt m (n + 1) x = m.get x.toNat :: codeAt m n (x + 1) := by
  simp [codeAt, Memory.read, h]

theorem codeAt_of_invalid {m : Memory} {n : Nat} {x : Word} (h : ¬ m.valid x.toNat) : codeAt m n x = [] := by
  cases n <;> simp [codeAt, Memory.read, h]

/-- What a non-empty list of code says about memory, byte by byte. -/
theorem codeAt_eq_cons {m : Memory} {n : Nat} {x : Word} {b : Byte} {bs : List Byte} :
    codeAt m (n + 1) x = b :: bs ↔ m.valid x.toNat ∧ m.get x.toNat = b ∧ codeAt m n (x + 1) = bs := by
  by_cases h : m.valid x.toNat
  · rw [codeAt_of_valid h]; simp [h]
  · rw [codeAt_of_invalid h]; simp [h]

end Sys2Proof.Machine
end

