-- ==== Sys2Proof/Laws/PerInstr.lean ====
section
/-! SUPPORT. Statements about every instruction as syntax, one lemma per constructor. -/

namespace Sys2Proof.Laws.OpcodeDecodes

open Sys2Proof

/-- The opcode byte of a well-formed kind decodes to that kind, and the kind's length is R64's function of the byte. -/
def Statement (i : Instr) : Prop :=
  i.wf = true → decodeOpcode i.opcode = i ∧
    i.format.length = if i.opcode = 0x21#8 ∨ i.opcode = 0xCD#8 then 3 else if i.opcode = 0x3E#8 then 2 else 1

theorem ldHLnn : Statement .ldHLnn := by unfold Statement; decide
theorem ldAn : Statement .ldAn := by unfold Statement; decide
theorem incA : Statement .incA := by unfold Statement; decide
theorem decA : Statement .decA := by unfold Statement; decide
theorem jpHL : Statement .jpHL := by unfold Statement; decide
theorem pushHL : Statement .pushHL := by unfold Statement; decide
theorem popHL : Statement .popHL := by unfold Statement; decide
theorem callnn : Statement .callnn := by unfold Statement; decide
theorem ret : Statement .ret := by unfold Statement; decide
theorem unmapped (op : Byte) : Statement (.unmapped op) := by unfold Statement; revert op; decide

end Sys2Proof.Laws.OpcodeDecodes
end

