-- ==== Sys2Proof/Laws/Step.lean ====
section
/-! SUPPORT. What a step does, and what each meaning answers, in terms of the operations' laws. -/

namespace Sys2Proof.Machine

/-- A step at a valid `PC` is the meaning of the kind its opcode byte selects, after the fetch (R80). -/
theorem step_of_valid {s : State} (h : s.valid s.pc) :
    step s = exec (decodeOpcode (s.byteAt s.pc)) (s.setPC (s.pc + 1)) := by
  simp [step, fetch8_of_valid h]

/-- A step at an invalid `PC` faults on its opcode fetch and changes nothing (R81, R157). -/
theorem step_of_invalid {s : State} (h : ¬ s.valid s.pc) : step s = .fault (.outOfRange s.pc .read s) := by
  simp [step, fetch8_of_invalid h]

/-- Everything a step can do: it faults on its fetch, or it executes the kind at `PC`. -/
theorem step_cases (s : State) :
    (¬ s.valid s.pc ∧ step s = .fault (.outOfRange s.pc .read s)) ∨
      (s.valid s.pc ∧ step s = exec (decodeOpcode (s.byteAt s.pc)) (s.setPC (s.pc + 1))) := by
  by_cases h : s.valid s.pc
  · exact .inr ⟨h, step_of_valid h⟩
  · exact .inl ⟨h, step_of_invalid h⟩

/-- What a step reports of the byte it fetched (R84): `OkUnknown` exactly when the byte is unmapped. -/
theorem reportOf_decodeOpcode (op : Byte) (a : Word) :
    reportOf (decodeOpcode op) a = if isUnmapped op = true then .okUnknown op a else .ok := by
  have ho := opcode_decodeOpcode op
  have hu := decodeOpcode_eq_unmapped op
  cases hd : decodeOpcode op <;> rw [hd] at ho hu <;> simp [Instr.opcode] at ho hu <;> simp [reportOf, ← hu, ho]

/-- The outcome of a step that completes. -/
theorem stepOutcome_of_next {s t : State} (h : step s = .next t) :
    stepOutcome s =
      some (if isUnmapped (s.byteAt s.pc) = true then .okUnknown (s.byteAt s.pc) s.pc else .ok, t) := by
  rw [stepOutcome, h, ← reportOf_decodeOpcode]

/-- The outcome of a step that faults. -/
theorem stepOutcome_of_fault {s t : State} {addr : Word} {kind : AccessKind}
    (h : step s = .fault (.outOfRange addr kind t)) : stepOutcome s = some (.fault addr kind, t) := by
  rw [stepOutcome, h]

end Sys2Proof.Machine
end

