-- ==== Sys2Proof/Laws/Run.lean ====
section
/-! SUPPORT. Runs of several steps, one step at a time. -/

namespace Sys2Proof

open Sys2Proof.Machine

theorem runsTo_zero {s t : State} : RunsTo 0 s t ↔ s = t := by
  constructor
  · intro h
    cases h
    rfl
  · rintro rfl
    rfl

/-- A run whose first step answers a next state goes on from it. -/
theorem runsTo_succ_of_next {k : Nat} {s t u : State} (h : step s = .next t) : RunsTo (k + 1) s u ↔ RunsTo k t u := by
  simp [RunsTo, Host.Core.run, core, h]

/-- A run of at least one step begins with a step that answers a next state. -/
theorem runsTo_succ {k : Nat} {s u : State} : RunsTo (k + 1) s u ↔ ∃ t, step s = .next t ∧ RunsTo k t u := by
  constructor
  · intro h
    cases e : step s with
    | next t => exact ⟨t, rfl, (runsTo_succ_of_next e).mp h⟩
    | fault f => simp [RunsTo, Host.Core.run, core, e] at h
    | refused r => simp [RunsTo, Host.Core.run, core, e] at h
  · rintro ⟨t, e, h⟩
    exact (runsTo_succ_of_next e).mpr h

end Sys2Proof
end

