-- ==== Sys2Proof/Tests/Slice0.lean ====
section
/-! SUPPORT. The model's own tests. Expected values are those of spec/95_test_vectors.md (the vector's name stands beside
each) or of the rule named. Witnesses show that the hypotheses of each statement can be met, clause by clause. -/

namespace Sys2Proof.Tests

open Sys2Proof Sys2Proof.Machine

/-! ### Helpers -/

/-- A state in the vectors' notation `PC SP HL A`, with 65535 cells. -/
def small (pc sp hl : Word) (a : Byte) (cells : List Host.Cell) : State := ⟨pc, sp, hl, a, ⟨.cells65535, cells⟩⟩

/-- The same with 65536 cells. -/
def large (pc sp hl : Word) (a : Byte) (cells : List Host.Cell) : State := ⟨pc, sp, hl, a, ⟨.cells65536, cells⟩⟩

def nextIs (o : Outcome) (t : State) : Bool :=
  match o with
  | .next u    => decide (u = t)
  | .fault _   => false
  | .refused _ => false

def faultIs (o : Outcome) (addr : Word) (kind : AccessKind) (t : State) : Bool :=
  match o with
  | .next _    => false
  | .fault f   => decide (f = .outOfRange addr kind t)
  | .refused _ => false

/-! ### Well-formedness: one ill-formed term for each check -/

theorem test_wf_refuses_mapped_byte_as_unmapped : (Instr.unmapped 0x21#8).wf = false := by decide
theorem test_wf_refuses_missing_operand : (Coded.mk .ldHLnn .none).wf = false := by decide
theorem test_wf_refuses_operand_of_other_format : (Coded.mk .ldAn (.imm16 0x0005#16)).wf = false := by decide
theorem test_wf_refuses_operand_of_unmapped : (Coded.mk (.unmapped 0xC3#8) (.imm16 0x1234#16)).wf = false := by decide
theorem test_wf_refuses_ill_formed_kind : (Coded.mk (.unmapped 0xC9#8) .none).wf = false := by decide
theorem test_wf_accepts : (Coded.mk .callnn (.imm16 0x8844#16)).wf = true := by decide

/-! ### Decoding: each constructor by a word written out in binary from 30_encoding.md R65 -/

theorem test_decode_ldHLnn :
    decode [0b00100001#8, 0x98#8, 0x76#8] = .ok (⟨.ldHLnn, .imm16 0x9876#16⟩, []) := by rfl
theorem test_decode_ldAn : decode [0b00111110#8, 0xEA#8] = .ok (⟨.ldAn, .imm8 0xEA#8⟩, []) := by rfl
theorem test_decode_incA : decode [0b00111100#8] = .ok (⟨.incA, .none⟩, []) := by rfl
theorem test_decode_decA : decode [0b00111101#8] = .ok (⟨.decA, .none⟩, []) := by rfl
theorem test_decode_jpHL : decode [0b11101001#8] = .ok (⟨.jpHL, .none⟩, []) := by rfl
theorem test_decode_pushHL : decode [0b11100101#8] = .ok (⟨.pushHL, .none⟩, []) := by rfl
theorem test_decode_popHL : decode [0b11100001#8] = .ok (⟨.popHL, .none⟩, []) := by rfl
theorem test_decode_callnn :
    decode [0b11001101#8, 0x88#8, 0x44#8] = .ok (⟨.callnn, .imm16 0x8844#16⟩, []) := by rfl
theorem test_decode_ret : decode [0b11001001#8] = .ok (⟨.ret, .none⟩, []) := by rfl

/-- 2.9 M5: the neighbours of every mapped opcode are unmapped. -/
theorem test_decode_unmapped_neighbours :
    ∀ op ∈ [0x20#8, 0x22#8, 0x3B#8, 0x3F#8, 0xC8#8, 0xCA#8, 0xCC#8, 0xCE#8, 0xE0#8, 0xE2#8, 0xE4#8, 0xE6#8, 0xE8#8,
      0xEA#8, 0x00#8, 0x76#8, 0xFF#8], decodeOpcode op = .unmapped op := by decide

/-- R67: "33 + 26 + 138 + 3 + 19 + 3 + 3 + 22 = 247". -/
theorem test_unmapped_count :
    (unmappedRanges.map fun r => r.2 - r.1 + 1) = [33, 26, 138, 3, 19, 3, 3, 22] ∧
      (unmappedRanges.map fun r => r.2 - r.1 + 1).sum = 247 := by decide

theorem test_decode_rejects_by_name :
    decode [] = .error .noOpcode ∧ decode [0x21#8, 0x98#8] = .error (.operandMissing .ldHLnn) ∧
      decode [0x3E#8] = .error (.operandMissing .ldAn) ∧ decode [0xCD#8] = .error (.operandMissing .callnn) :=
  ⟨rfl, rfl, rfl, rfl⟩

theorem test_encode_call : encode ⟨.callnn, .imm16 0x8844#16⟩ = [0xCD#8, 0x88#8, 0x44#8] := by decide

theorem test_decodeTableWord :
    decodeTableWord 24 0x448_8CD = some .callnn ∧ decodeTableWord 16 0x3E = some .ldAn ∧
      decodeTableWord 8 0x00 = some (.unmapped 0x00#8) := by decide

/-! ### The instructions: one step each -/

/-- 2.1 V3: high byte first. -/
theorem test_ldHLnn_big_endian :
    nextIs (step (small 0x0100 0xFFFE 0x1111 0x22 [(0x0100, 0x21), (0x0101, 0x12), (0x0102, 0x34)]))
      (small 0x0103 0xFFFE 0x1234 0x22 [(0x0100, 0x21), (0x0101, 0x12), (0x0102, 0x34)]) = true := by decide

/-- 2.1 V4: the second operand read faults, `HL` unchanged. -/
theorem test_ldHLnn_second_operand_faults :
    faultIs (step (small 0xFFFD 0x8000 0x1111 0x22 [(0xFFFD, 0x21), (0xFFFE, 0xAB)])) 0xFFFF .read
      (small 0xFFFF 0x8000 0x1111 0x22 [(0xFFFD, 0x21), (0xFFFE, 0xAB)]) = true := by decide

/-- X8, last row: `PC` wraps between opcode and operand. -/
theorem test_ldAn_wraps :
    nextIs (step (large 0xFFFF 0x8000 0x1111 0x22 [(0x0000, 0x77), (0xFFFF, 0x3E)]))
      (large 0x0001 0x8000 0x1111 0x77 [(0x0000, 0x77), (0xFFFF, 0x3E)]) = true := by decide

/-- X8, first row: the operand beyond the last cell. -/
theorem test_ldAn_operand_faults :
    faultIs (step (small 0xFFFE 0x8000 0x1111 0x22 [(0xFFFE, 0x3E)])) 0xFFFF .read
      (small 0xFFFF 0x8000 0x1111 0x22 [(0xFFFE, 0x3E)]) = true := by decide

/-- 2.3. -/
theorem test_incA_wraps :
    nextIs (step (small 0x0200 0xFFFE 0x1111 0xFF [(0x0200, 0x3C)]))
      (small 0x0201 0xFFFE 0x1111 0x00 [(0x0200, 0x3C)]) = true := by decide

/-- 2.3. -/
theorem test_decA_wraps :
    nextIs (step (small 0x0200 0xFFFE 0x1111 0x00 [(0x0200, 0x3D)]))
      (small 0x0201 0xFFFE 0x1111 0xFF [(0x0200, 0x3D)]) = true := by decide

/-- 2.4 J4: the jump to an invalid address does not fault, the next step does. -/
theorem test_jpHL_invalid_target :
    nextIs (step (small 0x0300 0xFFFE 0xFFFF 0x22 [(0x0300, 0xE9)]))
        (small 0xFFFF 0xFFFE 0xFFFF 0x22 [(0x0300, 0xE9)]) = true ∧
      faultIs (step (small 0xFFFF 0xFFFE 0xFFFF 0x22 [(0x0300, 0xE9)])) 0xFFFF .read
        (small 0xFFFF 0xFFFE 0xFFFF 0x22 [(0x0300, 0xE9)]) = true := by decide

/-- 2.5 U3: the second write faults, the first stays. -/
theorem test_pushHL_second_write_faults :
    faultIs (step (small 0x0400 0x0001 0x1234 0x22 [(0x0400, 0xE5)])) 0xFFFF .write
      (small 0x0401 0xFFFF 0x1234 0x22 [(0x0000, 0x12), (0x0400, 0xE5)]) = true := by decide

/-- 2.5 U3b: with 65536 cells `SP` wraps. -/
theorem test_pushHL_wraps :
    nextIs (step (large 0x0400 0x0001 0x1234 0x22 [(0x0400, 0xE5)]))
      (large 0x0401 0xFFFF 0x1234 0x22 [(0x0000, 0x12), (0x0400, 0xE5), (0xFFFF, 0x34)]) = true := by decide

/-- 2.6 O1: low byte at the lower address. -/
theorem test_popHL_little_endian :
    nextIs (step (small 0x0500 0x9000 0x1111 0x22 [(0x0500, 0xE1), (0x9000, 0x34), (0x9001, 0x12)]))
      (small 0x0501 0x9002 0x1234 0x22 [(0x0500, 0xE1), (0x9000, 0x34), (0x9001, 0x12)]) = true := by decide

/-- 2.6 O3: the second read faults with `SP` at the faulting address. -/
theorem test_popHL_second_read_faults :
    faultIs (step (small 0x0500 0xFFFE 0x1111 0x22 [(0x0500, 0xE1), (0xFFFE, 0xCD)])) 0xFFFF .read
      (small 0x0501 0xFFFF 0x1111 0x22 [(0x0500, 0xE1), (0xFFFE, 0xCD)]) = true := by decide

/-- 2.7 K2: both operands overwritten before they are read. -/
theorem test_callnn_over_its_operands :
    nextIs (step (small 0x0100 0x0103 0x1111 0x22 [(0x0100, 0xCD), (0x0101, 0x88), (0x0102, 0x44)]))
      (small 0x0301 0x0101 0x1111 0x22 [(0x0100, 0xCD), (0x0101, 0x03), (0x0102, 0x01)]) = true := by decide

/-- 2.7 K8: the return address wraps to 0000 and is pushed, then the low operand read faults. -/
theorem test_callnn_low_operand_faults :
    faultIs (step (small 0xFFFD 0x8000 0x1111 0x22 [(0xFFFD, 0xCD), (0xFFFE, 0x12)])) 0xFFFF .read
      (small 0xFFFF 0x7FFE 0x1111 0x22 [(0xFFFD, 0xCD), (0xFFFE, 0x12)]) = true := by decide

/-- 2.8 T5: low byte from FFFF, high byte the opcode itself at 0000. -/
theorem test_ret_wraps :
    nextIs (step (large 0x0000 0xFFFF 0x1111 0x22 [(0x0000, 0xC9)]))
      (large 0xC900 0x0001 0x1111 0x22 [(0x0000, 0xC9)]) = true := by decide

/-- 2.8 T2: `PC` stays at `a + 1`. -/
theorem test_ret_second_read_faults :
    faultIs (step (small 0x0600 0xFFFE 0x1111 0x22 [(0x0600, 0xC9), (0xFFFE, 0x05)])) 0xFFFF .read
      (small 0x0601 0xFFFF 0x1111 0x22 [(0x0600, 0xC9), (0xFFFE, 0x05)]) = true := by decide

/-- 2.9 M2: no halt, and the byte is reported. -/
theorem test_unmapped_is_reported :
    stepOutcome (small 0x0700 0xFFFE 0x1111 0x22 [(0x0700, 0x76)]) =
      some (.okUnknown 0x76 0x0700, small 0x0701 0xFFFE 0x1111 0x22 [(0x0700, 0x76)]) := by decide

/-- 2.9 M7: the opcode fetch faults and `PC` is not advanced. -/
theorem test_fetch_faults :
    stepOutcome (small 0xFFFF 0x8000 0x1111 0x22 []) =
      some (.fault 0xFFFF .read, small 0xFFFF 0x8000 0x1111 0x22 []) := by decide

/-- 2.4, 2.5: a mapped instruction that ran to its end has outcome `Ok` (R84). -/
theorem test_mapped_outcome_is_ok :
    stepOutcome (small 0x0300 0xFFFE 0x9999 0x22 [(0x0300, 0xE9)]) =
        some (.ok, small 0x9999 0xFFFE 0x9999 0x22 [(0x0300, 0xE9)]) ∧
      stepOutcome (small 0x0200 0xFFFE 0x1111 0xFF [(0x0200, 0x3C)]) =
        some (.ok, small 0x0201 0xFFFE 0x1111 0x00 [(0x0200, 0x3C)]) := by decide

/-- R154's numbers. -/
theorem test_codes :
    StepOutcome.code .ok = 0 ∧ (StepOutcome.fault 0xFFFF .read).code = 1 ∧ (StepOutcome.okUnknown 0x76 0x0700).code = 2 ∧
      AccessKind.read.code = 0 ∧ AccessKind.write.code = 1 := by decide

/-! ### Reset, memory form, host -/

/-- R34: `PC = 0`, `SP = MEM_SIZE - 1` for both sizes. -/
theorem test_created_sp :
    (State.created .cells65535 0 0 []).sp = 0xFFFE ∧ (State.created .cells65536 0 0 []).sp = 0xFFFF := by decide

theorem test_reset_canonical : State.reset.mem.wf := by decide

/-- Writing what an unlisted cell reads as removes the entry. -/
theorem test_write_back_unlists :
    storeCell (storeCell [(0x10, 0x01)] 0x08 0x05) 0x08 0x00 = [(0x10, 0x01)] := by decide

theorem test_withFetchWord_runs :
    nextIs (step (State.reset.withFetchWord 24 0x563421)) { State.reset.withFetchWord 24 0x563421 with hl := 0x3456, pc := 3 } =
      true := by decide

/-- R183, R158: a host write is refused once a step is made; the values are stored modulo the width. -/
theorem test_host_write_then_step :
    (match serve (Session.create .cells65535 0 0 []) (.setA 0x1FF) with
      | .ok (c, _) => (match serve c .step with
        | .ok (c', v) => decide (c.state.a = 0xFF) && decide (v = .outcome (.okUnknown 0x00 0x0000)) &&
            (match serve c' (.setA 0) with
              | .ok _    => false
              | .error e => decide (e = .writeDuringRun))
        | .error _ => false)
      | .error _ => false) = true := by decide

/-! ### Witnesses -/

/-- A program at 0x0100 whose opcode byte is `op`, with room for every access. -/
def ready (op : Byte) : State := small 0x0100 0x9000 0x1234 0x22 [(0x0100, op)]

theorem witness_DecodeOfEncodeIsTheInstruction :
    ∀ c ∈ [Coded.mk .ldHLnn (.imm16 0xFFFF), ⟨.ldHLnn, .imm16 0x0000⟩, ⟨.ldAn, .imm8 0xFF⟩, ⟨.ret, .none⟩,
      ⟨.unmapped 0x00, .none⟩, ⟨.unmapped 0xFF, .none⟩], c.wf = true := by decide

theorem witness_DecodedBytesEncodeBack :
    decode [0xCD#8, 0xFF#8, 0x00#8, 0x21#8] = .ok (⟨.callnn, .imm16 0xFF00#16⟩, [0x21#8]) := by rfl

theorem witness_StepKeepsMemoryCanonical :
    Canonical (ready 0xE5) ∧ (∃ t, step (ready 0xE5) = .next t) ∧ Canonical (small 0xFFFF 0 0 0 []) ∧
      ∃ t, step (small 0xFFFF 0 0 0 []) = .fault (.outOfRange 0xFFFF .read t) :=
  ⟨by unfold Canonical; decide, ⟨_, rfl⟩, by unfold Canonical; decide, ⟨_, rfl⟩⟩

/-- The boundary of validity: `MemReadAnswersTheByteOrRaises`, `MemWriteChangesExactlyOneCell`, `FetchReadsThenAdvances`. -/
theorem witness_validity :
    (small 0xFFFE 0 0 0 []).valid 0xFFFE ∧ ¬ (small 0xFFFF 0 0 0 []).valid 0xFFFF ∧ (large 0xFFFF 0 0 0 []).valid 0xFFFF := by
  decide

/-- The clauses about a push: `PushStoresHighByteThenLowByte`, `PushHlResult`, the first three of `CallResult`. -/
theorem witness_push_clauses :
    ((small 0x0101 0x0002 0 0 []).valid (0x0002 - 1) ∧ (small 0x0101 0x0002 0 0 []).valid (0x0002 - 2)) ∧
      ¬ (small 0x0101 0x0000 0 0 []).valid (0x0000 - 1) ∧
      ((small 0x0101 0x0001 0 0 []).valid (0x0001 - 1) ∧ ¬ (small 0x0101 0x0001 0 0 []).valid (0x0001 - 2)) := by decide

/-- The clauses about a pop: `PopReadsLowByteThenHighByte`, `PopHlResult`, `ReturnResult`. -/
theorem witness_pop_clauses :
    ((small 0x0101 0xFFFD 0 0 []).valid 0xFFFD ∧ (small 0x0101 0xFFFD 0 0 []).valid (0xFFFD + 1)) ∧
      ¬ (small 0x0101 0xFFFF 0 0 []).valid 0xFFFF ∧
      ((small 0x0101 0xFFFE 0 0 []).valid 0xFFFE ∧ ¬ (small 0x0101 0xFFFE 0 0 []).valid (0xFFFE + 1)) := by decide

/-- The clauses about operand bytes: `LoadHlResult`, `LoadAResult`, the last two of `CallResult` (stack at 0x8000). -/
theorem witness_operand_clauses :
    ((small 0xFFFD 0x8000 0 0 []).valid 0xFFFD ∧ (small 0xFFFD 0x8000 0 0 []).valid (0xFFFD + 1)) ∧
      ¬ (small 0xFFFF 0x8000 0 0 []).valid 0xFFFF ∧
      ((small 0xFFFE 0x8000 0 0 []).valid 0xFFFE ∧ ¬ (small 0xFFFE 0x8000 0 0 []).valid (0xFFFE + 1)) ∧
      ((small 0xFFFE 0x8000 0 0 []).valid (0x8000 - 1) ∧ (small 0xFFFE 0x8000 0 0 []).valid (0x8000 - 2)) := by decide

theorem witness_StepRunsTheDecodedInstruction :
    (∃ c rest, decode (codeAt (ready 0xCD).mem 3 0x0100) = .ok (c, rest)) ∧
      decode (codeAt (small 0xFFFE 0 0 0 [(0xFFFE, 0x21)]).mem 3 0xFFFE) = .error (.operandMissing .ldHLnn) ∧
      decode (codeAt (small 0xFFFF 0 0 0 []).mem 3 0xFFFF) = .error .noOpcode :=
  ⟨⟨_, _, rfl⟩, rfl, rfl⟩

theorem witness_StandingInstructionRunsWithItsOperand :
    StandsAt ⟨.ldHLnn, .imm16 0x1234⟩ 0xFFFC ⟨.cells65535, [(0xFFFC, 0x21), (0xFFFD, 0x12), (0xFFFE, 0x34)]⟩ ∧
      StandsAt ⟨.ldAn, .imm8 0x77⟩ 0xFFFF ⟨.cells65536, [(0x0000, 0x77), (0xFFFF, 0x3E)]⟩ ∧
      StandsAt ⟨.callnn, .imm16 0x8844⟩ 0x0100 ⟨.cells65535, [(0x0100, 0xCD), (0x0101, 0x88), (0x0102, 0x44)]⟩ ∧
      ((0x0101 : Word) - 1 ≠ 0x0100 + 1 ∧ (0x0101 : Word) - 1 ≠ 0x0100 + 2 ∧ (0x0101 : Word) - 2 ≠ 0x0100 + 1 ∧
        (0x0101 : Word) - 2 ≠ 0x0100 + 2) := by
  unfold StandsAt; decide

theorem witness_PlacedWordIsFetchedAndRun :
    State.reset.valid State.reset.pc ∧ decodeTableWord 24 0x448_8CD = some .callnn := by decide

/-- Also for `OutOfRangeOnlyAtTheTopOfTheSmallerMemory`. -/
theorem witness_StepFaultsAtItsFirstInvalidAccess :
    (∃ t, step (ready 0xCD) = .next t) ∧
      ∃ t, step (small 0xFFFD 0x8000 0 0 [(0xFFFD, 0xCD)]) = .fault (.outOfRange 0xFFFF .read t) :=
  ⟨⟨_, rfl⟩, ⟨_, rfl⟩⟩

theorem witness_NoRunFaultsWithTheLargerMemory : (large 0xFFFF 0x0001 0 0 []).mem.size = .cells65536 := rfl

/-- A step of every kind that completes: `ProgramCounterAfterAStep`, `OnlyTheNamedOpcodesWriteEachPieceOfState`,
`AccumulatorInfluencesNothingElse`, `HlInfluencesOnlyJumpAndPush`. -/
theorem witness_steps_complete :
    (∃ t, step (ready 0x21) = .next t) ∧ (∃ t, step (ready 0x3E) = .next t) ∧ (∃ t, step (ready 0x3C) = .next t) ∧
      (∃ t, step (ready 0x3D) = .next t) ∧ (∃ t, step (ready 0xE9) = .next t) ∧ (∃ t, step (ready 0xE5) = .next t) ∧
      (∃ t, step (ready 0xE1) = .next t) ∧ (∃ t, step (ready 0xCD) = .next t) ∧ (∃ t, step (ready 0xC9) = .next t) ∧
      ∃ t, step (ready 0x00) = .next t :=
  ⟨⟨_, rfl⟩, ⟨_, rfl⟩, ⟨_, rfl⟩, ⟨_, rfl⟩, ⟨_, rfl⟩, ⟨_, rfl⟩, ⟨_, rfl⟩, ⟨_, rfl⟩, ⟨_, rfl⟩, ⟨_, rfl⟩⟩

/-- The conditions of `HlInfluencesOnlyJumpAndPush`, with a completing step that loads `HL`, one that keeps it and one that
faults. -/
theorem witness_HlInfluencesOnlyJumpAndPush :
    ((ready 0xE1).byteAt 0x0100 ≠ 0xE9#8 ∧ (ready 0xE1).byteAt 0x0100 ≠ 0xE5#8 ∧ ∃ t, step (ready 0xE1) = .next t) ∧
      ((ready 0xCD).byteAt 0x0100 ≠ 0xE9#8 ∧ (ready 0xCD).byteAt 0x0100 ≠ 0xE5#8 ∧ ∃ t, step (ready 0xCD) = .next t) ∧
      ((small 0xFFFE 0 0 0 [(0xFFFE, 0x21)]).byteAt 0xFFFE ≠ 0xE9#8 ∧
        (small 0xFFFE 0 0 0 [(0xFFFE, 0x21)]).byteAt 0xFFFE ≠ 0xE5#8 ∧
        ∃ t, step (small 0xFFFE 0 0 0 [(0xFFFE, 0x21)]) = .fault (.outOfRange 0xFFFF .read t)) :=
  ⟨⟨by decide, by decide, _, rfl⟩, ⟨by decide, by decide, _, rfl⟩, by decide, by decide, _, rfl⟩

/-- An execution of every kind that completes: `RegisterInstructionsFrame`, `PoppingInstructionsFrame`,
`PushingInstructionsFrame`, `EitherPushServesEitherPop`, `PushedWordReadAsImmediateIsSwapped`. -/
theorem witness_executions_complete :
    (∃ t, exec .ldHLnn (ready 0) = .next t) ∧ (∃ t, exec .ldAn (ready 0) = .next t) ∧
      (∃ t, exec .incA (ready 0) = .next t) ∧ (∃ t, exec .decA (ready 0) = .next t) ∧
      (∃ t, exec .jpHL (ready 0) = .next t) ∧ (∃ t, exec (.unmapped 0x00) (ready 0) = .next t) ∧
      (∃ t, exec .popHL (ready 0) = .next t) ∧ (∃ t, exec .ret (ready 0) = .next t) ∧
      (∃ t, exec .pushHL (ready 0) = .next t) ∧ ∃ t, exec .callnn (ready 0) = .next t :=
  ⟨⟨_, rfl⟩, ⟨_, rfl⟩, ⟨_, rfl⟩, ⟨_, rfl⟩, ⟨_, rfl⟩, ⟨_, rfl⟩, ⟨_, rfl⟩, ⟨_, rfl⟩, ⟨_, rfl⟩, ⟨_, rfl⟩⟩

theorem witness_UnknownOpcodeIsReportedExactlyWhenUnmapped :
    (ready 0xFF).valid 0x0100 ∧ isUnmapped ((ready 0xFF).byteAt 0x0100) = true := by decide

/-- The rows of R157's table: a faulting step for each. -/
theorem witness_StateAFaultLeaves :
    (∃ t, step (small 0xFFFF 0x8000 0 0 []) = .fault (.outOfRange 0xFFFF .read t)) ∧
      (∃ t, step (small 0xFFFE 0x8000 0 0 [(0xFFFE, 0x21)]) = .fault (.outOfRange 0xFFFF .read t)) ∧
      (∃ t, step (small 0xFFFD 0x8000 0 0 [(0xFFFD, 0x21)]) = .fault (.outOfRange 0xFFFF .read t)) ∧
      (∃ t, step (small 0xFFFE 0x8000 0 0 [(0xFFFE, 0x3E)]) = .fault (.outOfRange 0xFFFF .read t)) ∧
      (∃ t, step (small 0x0400 0x0000 0 0 [(0x0400, 0xE5)]) = .fault (.outOfRange 0xFFFF .write t)) ∧
      (∃ t, step (small 0x0400 0x0001 0 0 [(0x0400, 0xE5)]) = .fault (.outOfRange 0xFFFF .write t)) ∧
      (∃ t, step (small 0x0500 0xFFFF 0 0 [(0x0500, 0xE1)]) = .fault (.outOfRange 0xFFFF .read t)) ∧
      (∃ t, step (small 0x0500 0xFFFE 0 0 [(0x0500, 0xE1)]) = .fault (.outOfRange 0xFFFF .read t)) ∧
      (∃ t, step (small 0x0100 0x0000 0 0 [(0x0100, 0xCD)]) = .fault (.outOfRange 0xFFFF .write t)) ∧
      (∃ t, step (small 0x0100 0x0001 0 0 [(0x0100, 0xCD)]) = .fault (.outOfRange 0xFFFF .write t)) ∧
      (∃ t, step (small 0xFFFE 0x8000 0 0 [(0xFFFE, 0xCD)]) = .fault (.outOfRange 0xFFFF .read t)) ∧
      (∃ t, step (small 0xFFFD 0x8000 0 0 [(0xFFFD, 0xCD)]) = .fault (.outOfRange 0xFFFF .read t)) ∧
      (∃ t, step (small 0x0600 0xFFFF 0 0 [(0x0600, 0xC9)]) = .fault (.outOfRange 0xFFFF .read t)) ∧
      ∃ t, step (small 0x0600 0xFFFE 0 0 [(0x0600, 0xC9)]) = .fault (.outOfRange 0xFFFF .read t) :=
  ⟨⟨_, rfl⟩, ⟨_, rfl⟩, ⟨_, rfl⟩, ⟨_, rfl⟩, ⟨_, rfl⟩, ⟨_, rfl⟩, ⟨_, rfl⟩, ⟨_, rfl⟩, ⟨_, rfl⟩, ⟨_, rfl⟩, ⟨_, rfl⟩,
    ⟨_, rfl⟩, ⟨_, rfl⟩, ⟨_, rfl⟩⟩

theorem witness_OperandBeyondTheLastCellFaults :
    (small 0xFFFE 0x8000 0 0 [(0xFFFE, 0x3E)]).byteAt 0xFFFE = 0x3E#8 ∧
      (small 0xFFFE 0x8000 0 0 [(0xFFFE, 0x21)]).byteAt 0xFFFE = 0x21#8 ∧
      (small 0xFFFE 0x8000 0 0 [(0xFFFE, 0xCD)]).byteAt 0xFFFE = 0xCD#8 ∧
      (small 0xFFFE 0x8000 0 0 [(0xFFFE, 0xCD)]).valid (0x8000 - 1) ∧
      (small 0xFFFE 0x8000 0 0 [(0xFFFE, 0xCD)]).valid (0x8000 - 2) := by decide

/-- The step clauses of `IncrementAResult`, `DecrementAResult` and `JumpHlResult` (an invalid target, a jump to itself), and of
`UnmappedResult`. -/
theorem witness_step_clauses :
    (small 0xFFFE 0 0 0 [(0xFFFE, 0x3C)]).byteAt 0xFFFE = 0x3C#8 ∧
      (small 0xFFFE 0 0 0 [(0xFFFE, 0x3D)]).byteAt 0xFFFE = 0x3D#8 ∧
      ((small 0x0300 0 0xFFFF 0 [(0x0300, 0xE9)]).byteAt 0x0300 = 0xE9#8 ∧
        ¬ (small 0x0300 0 0xFFFF 0 [(0x0300, 0xE9)]).valid 0xFFFF) ∧
      ((small 0x0300 0 0x0300 0 [(0x0300, 0xE9)]).byteAt 0x0300 = 0xE9#8 ∧
        (small 0x0300 0 0x0300 0 [(0x0300, 0xE9)]).hl = (small 0x0300 0 0x0300 0 [(0x0300, 0xE9)]).pc) ∧
      ((small 0xFFFE 0 0 0 []).valid 0xFFFE ∧ isUnmapped ((small 0xFFFE 0 0 0 []).byteAt 0xFFFE) = true) := by decide

/-- 2.7 K2, K3, K4 after the opcode fetch: the three overlaps, every access valid. -/
theorem witness_CallOverItsOwnOperands :
    ((0x0103 : Word) = 0x0101 + 2 ∧ (0x0102 : Word) = 0x0101 + 1 ∧ (0x0104 : Word) = 0x0101 + 3) ∧
      ((small 0x0101 0x0103 0 0 []).valid 0x0102 ∧ (small 0x0101 0x0103 0 0 []).valid 0x0101) ∧
      ((small 0x0101 0x0102 0 0 []).valid 0x0101 ∧ (small 0x0101 0x0102 0 0 []).valid 0x0100) ∧
      ((small 0x0101 0x0104 0 0 []).valid 0x0103 ∧ (small 0x0101 0x0104 0 0 []).valid 0x0102) := by decide

/-- X6's first two steps. -/
theorem witness_LoadThenJumpReachesTheImmediate :
    StandsAt ⟨.ldHLnn, .imm16 0x9999⟩ 0x8000
        ⟨.cells65535, [(0x8000, 0x21), (0x8001, 0x99), (0x8002, 0x99), (0x8003, 0xE9)]⟩ ∧
      StandsAt ⟨.jpHL, .none⟩ (0x8000 + 3)
        ⟨.cells65535, [(0x8000, 0x21), (0x8001, 0x99), (0x8002, 0x99), (0x8003, 0xE9)]⟩ := by
  unfold StandsAt; decide

theorem witness_PopUndoesPush :
    (∃ t, push16 0x9876 (ready 0) = .ok () t) ∧
      StandsAt ⟨.pushHL, .none⟩ 0x999C ⟨.cells65535, [(0x999C, 0xE5), (0x999D, 0xE1)]⟩ ∧
      StandsAt ⟨.popHL, .none⟩ (0x999C + 1) ⟨.cells65535, [(0x999C, 0xE5), (0x999D, 0xE1)]⟩ ∧
      ((0xFFFE : Word) - 1 ≠ 0x999C + 1 ∧ (0xFFFE : Word) - 2 ≠ 0x999C + 1) := by
  refine ⟨⟨_, rfl⟩, ?_⟩
  unfold StandsAt
  decide

/-- X2's second row: the call at 0x0100, the return at 0x8844. -/
def callThenRet : Memory := ⟨.cells65535, [(0x0100, 0xCD), (0x0101, 0x88), (0x0102, 0x44), (0x8844, 0xC9)]⟩

theorem witness_ReturnUndoesCall :
    StandsAt ⟨.callnn, .imm16 0x8844⟩ 0x0100 callThenRet ∧ StandsAt ⟨.ret, .none⟩ 0x8844 callThenRet := by
  unfold StandsAt; decide

/-- With `SP = 0x9000` the two slots are cells and lie off the operands and the `RET`. -/
theorem witness_ReturnUndoesCall_slots :
    (callThenRet.valid 0x8FFF ∧ callThenRet.valid 0x8FFE) ∧
      ∀ x ∈ [0x8FFF#16, 0x8FFE#16], x ≠ 0x0101#16 ∧ x ≠ 0x0102#16 ∧ x ≠ 0x8844#16 := by
  simp [callThenRet, Memory.valid, MemSize.cells]

theorem witness_JumpToItselfLoopsForEver :
    StandsAt ⟨.jpHL, .none⟩ 0x0300 ⟨.cells65535, [(0x0300, 0xE9)]⟩ := by
  unfold StandsAt; decide

theorem witness_UnmappedMemoryIsWalkedForEver :
    (large 0xFFFF 0 0 0 []).mem.size = .cells65536 ∧ ∀ x : Word, isUnmapped ((large 0xFFFF 0 0 0 []).byteAt x) = true :=
  ⟨rfl, fun _ => rfl⟩

theorem witness_AfterTheFirstStepOnlyStepsChangeState :
    (∃ c v, serve ⟨ready 0x3C, .running⟩ .readA = .ok (c, v)) ∧ (∃ c v, serve ⟨ready 0x3C, .boot⟩ .step = .ok (c, v)) ∧
      ∃ c v, serve ⟨ready 0x3C, .failed⟩ .discard = .ok (c, v) :=
  ⟨⟨_, _, rfl⟩, ⟨_, _, rfl⟩, ⟨_, _, rfl⟩⟩

/-- `CompletedStepIsAnsweredAndTheRunGoesOn`, before and after the first step, for a mapped opcode and an unmapped one. -/
theorem witness_CompletedStepIsAnsweredAndTheRunGoesOn :
    ∀ p ∈ [Phase.boot, Phase.running], (p = .boot ∨ p = .running) ∧
      (∃ t, step (Session.mk (ready 0xCD) p).state = .next t) ∧ ∃ t, step (Session.mk (ready 0x76) p).state = .next t := by
  intro p hp
  refine ⟨by simpa using hp, ?_, ?_⟩
  · show ∃ t, step (ready 0xCD) = .next t
    exact ⟨_, rfl⟩
  · show ∃ t, step (ready 0x76) = .next t
    exact ⟨_, rfl⟩

/-- Both clauses' premises in one session, for a machine just created and for one that has run. -/
theorem witness_FaultEndsTheRun :
    ∀ p ∈ [Phase.boot, Phase.running], (p = .boot ∨ p = .running) ∧
      ∃ t, step (Session.mk (small 0xFFFF 0 0 0 []) p).state = .fault (.outOfRange 0xFFFF .read t) := by
  intro p hp
  exact ⟨by simpa using hp, ⟨_, rfl⟩⟩

/-- Also for `LoadedPieceIsReadBack`. -/
theorem witness_HostSetsRegistersModuloTheirWidth : (Session.create .cells65535 0 0 []).phase = .boot := rfl

/-- A piece that ends at the last cell, one that reaches past it, and one whose base is no cell, in the memory
`Session.create` gives. -/
theorem witness_LoadedPieceIsReadBack :
    (0xFFFD ≤ MemSize.cells .cells65535 ∧ 0xFFFD + [0x21#8, 0x12#8].length ≤ MemSize.cells .cells65535) ∧
      (0xFFFE ≤ MemSize.cells .cells65535 ∧ ¬ 0xFFFE + [0x21#8, 0x12#8].length ≤ MemSize.cells .cells65535) ∧
      (¬ 0x10000 ≤ MemSize.cells .cells65535 ∧ ¬ 0x10000 + [0x21#8].length ≤ MemSize.cells .cells65535) := by
  simp [MemSize.cells]

/-- R182, R43: with 65535 cells the first byte of the piece at FFFE is written and the second is answered `OutOfRange`; a
piece at 10000 is answered so at its base. -/
theorem test_loadPiece_out_of_range :
    (∃ c, loadPiece (Session.create .cells65535 0 0 []) 0xFFFE [0x21, 0x12] = .ok (c, .outOfRange 0xFFFF .write)) ∧
      ∃ c, loadPiece (Session.create .cells65535 0 0 []) 0x10000 [0x21] = .ok (c, .outOfRange 0x10000 .write) :=
  ⟨⟨_, rfl⟩, ⟨_, rfl⟩⟩

theorem witness_HostReadsAnswerTheStateUntilDiscard :
    (∀ p ∈ [Phase.boot, .running, .failed], (Session.mk (ready 0x3C) p).phase ≠ .discarded) ∧
      (Session.mk (ready 0x3C) .discarded).phase = .discarded := by decide

/-- The cell clauses of `ReadsAnswer` at the boundary: the last cell, and the address after it. -/
theorem test_host_reads_cells :
    serve ⟨small 0 0 0x1234 0 [(0xFFFE, 0x77)], .failed⟩ (.readCell 0xFFFE) =
        .ok (⟨small 0 0 0x1234 0 [(0xFFFE, 0x77)], .failed⟩, .byte 0x77) ∧
      serve ⟨small 0 0 0x1234 0 [], .failed⟩ (.readCell 0xFFFF) =
        .ok (⟨small 0 0 0x1234 0 [], .failed⟩, .outOfRange 0xFFFF .read) ∧
      serve ⟨small 0 0 0x1234 0 [], .running⟩ .readH = .ok (⟨small 0 0 0x1234 0 [], .running⟩, .byte 0x12) :=
  ⟨rfl, rfl, rfl⟩

/-- The last clause of `OpcodeMapIsTotalAndExact`. -/
theorem witness_OpcodeMapIsTotalAndExact :
    (decodeOpcode 0xC9#8).format = .f0 ∧ (decodeOpcode 0x22#8).format = .f0 := by decide

end Sys2Proof.Tests
end

section
/-! PROOFS. The memory family (20_memory.md): the port's read and write, and the byte order of immediates. The lemmas
before the theorems say how code that stands in memory is fetched and run. -/

namespace Sys2Proof.Machine

/-! ### The port (R42, R43) -/

/-- Settles O10: validity of the address decides which law of `memRead` applies. -/
theorem memReadAnswersTheByteOrRaises : Obligations.MemReadAnswersTheByteOrRaises :=
  fun _ _ => ⟨memRead_of_valid, memRead_of_invalid⟩

/-- Settles O11: the write answers `Memory.set`, whose read-after-write laws give the cell and its frame. -/
theorem memWriteChangesExactlyOneCell : Obligations.MemWriteChangesExactlyOneCell := by
  refine fun s addr v => ⟨fun hv => ?_, memWrite_of_invalid v⟩
  have stored : (s.setMem (s.mem.set addr.toNat v)).byteAt addr = v := Memory.get_set_same ..
  have readBack := memRead_of_valid ((State.valid_setMem_set s addr.toNat v addr).mpr hv)
  rw [stored] at readBack
  exact ⟨_, memWrite_of_valid v hv, stored, readBack, sameMemoryBut_set s addr v, rfl, rfl, rfl, rfl⟩

/-! ### Fetching code that stands in memory (R46, R62, R63) -/

/-- The 8-bit immediate is the byte at `PC` as it stands. -/
theorem fetch8_of_codeAt {s : State} {n : Byte} (h : codeAt s.mem 1 s.pc = [n]) :
    fetch8 s = .ok n (s.setPC (s.pc + 1)) := by
  obtain ⟨hv, rfl, -⟩ := codeAt_eq_cons.mp h
  exact fetch8_of_valid hv

/-- The 16-bit immediate has its high byte at the lower address. -/
theorem fetchImm16_of_codeAt {s : State} {nn : Word} (h : codeAt s.mem 2 s.pc = [hiByte nn, loByte nn]) :
    fetchImm16 s = .ok nn (s.setPC (s.pc + 2)) := by
  obtain ⟨hv₁, hb₁, h⟩ := codeAt_eq_cons.mp h
  obtain ⟨hv₂, hb₂, -⟩ := codeAt_eq_cons.mp h
  rw [fetchImm16_of_valid hv₁ hv₂, State.byteAt, State.byteAt, hb₁, hb₂, joinBytes_hiByte_loByte]

/-- Code none of whose addresses is among the changed ones stands as before. -/
theorem codeAt_of_sameMemoryBut {l : List Word} {s t : State} (h : SameMemoryBut l s t) {n : Nat} {x : Word}
    (hx : ∀ k < n, x + BitVec.ofNat 16 k ∉ l) : codeAt t.mem n x = codeAt s.mem n x := by
  induction n generalizing x with
  | zero => rfl
  | succ n ih =>
    have hget : t.mem.get x.toNat = s.mem.get x.toNat :=
      h.2 _ fun y hy hyx => hx 0 n.succ_pos (by simpa [BitVec.eq_of_toNat_eq hyx] using hy)
    have hrest : codeAt t.mem n (x + 1) = codeAt s.mem n (x + 1) :=
      ih fun k hk => by
        have hk' := hx (k + 1) (Nat.succ_lt_succ hk)
        rwa [Nat.add_comm, BitVec.ofNat_add, ← BitVec.add_assoc] at hk'
    simp only [codeAt, Memory.read, Memory.valid, h.1, hget, hrest]

/-! ### Running an instruction that stands at `PC` (R80, R82) -/

/-- Decoding the opcode of a well-formed kind gives the kind back (R65, R67). -/
theorem decodeOpcode_opcode {i : Instr} (h : i.wf = true) : decodeOpcode i.opcode = i := by
  cases i with
  | ldHLnn => rfl
  | ldAn => rfl
  | incA => rfl
  | decA => rfl
  | jpHL => rfl
  | pushHL => rfl
  | popHL => rfl
  | callnn => rfl
  | ret => rfl
  | unmapped op => exact (decodeOpcode_eq_unmapped op).mpr h

/-- An instruction that stands at `a` is its opcode byte at a valid address, then its operand bytes. -/
theorem standsAt_iff {c : Coded} {a : Word} {m : Memory} :
    StandsAt c a m ↔ m.valid a.toNat ∧ m.get a.toNat = c.instr.opcode ∧
      codeAt m (encodeOperand c.operand).length (a + 1) = encodeOperand c.operand :=
  codeAt_eq_cons

/-- A step runs the instruction that stands at `PC`, with its operand bytes still to be fetched. -/
theorem step_of_standsAt {s : State} {c : Coded} (hw : c.instr.wf = true) (h : StandsAt c s.pc s.mem) :
    step s = exec c.instr (s.setPC (s.pc + 1)) := by
  obtain ⟨hv, hop, -⟩ := standsAt_iff.mp h
  rw [step_of_valid hv, State.byteAt, hop, decodeOpcode_opcode hw]

theorem step_of_standing_ldHLnn {s : State} {nn : Word} (h : StandsAt ⟨.ldHLnn, .imm16 nn⟩ s.pc s.mem) :
    step s = .next { s with hl := nn, pc := s.pc + 3 } := by
  obtain ⟨-, -, operand⟩ := standsAt_iff.mp h
  have run : exec .ldHLnn (s.setPC (s.pc + 1)) = .next _ := execLdHLnn_of_fetch (fetchImm16_of_codeAt operand)
  rw [step_of_standsAt rfl h, run, State.setPC_pc, BitVec.add_assoc]
  rfl

theorem step_of_standing_ldAn {s : State} {n : Byte} (h : StandsAt ⟨.ldAn, .imm8 n⟩ s.pc s.mem) :
    step s = .next { s with a := n, pc := s.pc + 2 } := by
  obtain ⟨-, -, operand⟩ := standsAt_iff.mp h
  have run : exec .ldAn (s.setPC (s.pc + 1)) = .next _ := execLdAn_of_fetch (fetch8_of_codeAt operand)
  rw [step_of_standsAt rfl h, run, State.setPC_pc, BitVec.add_assoc]
  rfl

/-- The whole state a standing `CALL nn` leaves when its pushes are cells off its operand bytes: they are fetched after the
pushes (R140), so they must still stand then. -/
theorem step_of_standing_callnn {s : State} {nn : Word} (h : StandsAt ⟨.callnn, .imm16 nn⟩ s.pc s.mem)
    (hv₁ : s.valid (s.sp - 1)) (hv₂ : s.valid (s.sp - 2))
    (off₁ : s.pc + 1 ∉ [s.sp - 1, s.sp - 2]) (off₂ : s.pc + 2 ∉ [s.sp - 1, s.sp - 2]) :
    step s = .next ((s.pushed (s.pc + 3)).setPC nn) := by
  obtain ⟨-, -, operand⟩ := standsAt_iff.mp h
  have returnsTo : returnAddress (s.pc + 1) = s.pc + 3 := BitVec.add_assoc ..
  have push : push16 (returnAddress (s.pc + 1)) (s.setPC (s.pc + 1)) =
      .ok () ((s.setPC (s.pc + 1)).pushed (returnAddress (s.pc + 1))) :=
    push16_of_valid (s := s.setPC (s.pc + 1)) _ hv₁ hv₂
  have kept : codeAt (s.pushed (returnAddress (s.pc + 1))).mem 2 (s.pc + 1) = [hiByte nn, loByte nn] := by
    refine (codeAt_of_sameMemoryBut (sameMemoryBut_pushed s _) fun k hk => ?_).trans operand
    obtain rfl | rfl : k = 0 ∨ k = 1 := by omega
    · simpa using off₁
    · rwa [BitVec.add_assoc]
  have run : exec .callnn (s.setPC (s.pc + 1)) = .next _ := execCallnn_of_push push (fetchImm16_of_codeAt kept)
  rw [step_of_standsAt rfl h, run, returnsTo]
  rfl

/-- Settles O16: the encodings show the byte order, and each kind's step fetches the operand that stands after it. -/
theorem standingInstructionRunsWithItsOperand : Obligations.StandingInstructionRunsWithItsOperand := by
  refine ⟨fun b₁ b₂ => ?_, fun _ _ => step_of_standing_ldHLnn, fun _ _ => step_of_standing_ldAn,
    fun s nn h hv₁ hv₂ h₁₁ h₁₂ h₂₁ h₂₂ => ?_⟩
  · simp [encode, encodeOperand, Instr.opcode]
  · have run := step_of_standing_callnn h hv₁ hv₂ (by simpa using ⟨h₁₁.symm, h₂₁.symm⟩)
      (by simpa using ⟨h₁₂.symm, h₂₂.symm⟩)
    exact ⟨_, run, rfl, rfl, State.pushed_byteAt_high s _, State.pushed_byteAt_low s _⟩

end Sys2Proof.Machine
end

section
/-! PROOFS. The encoding family (30_encoding.md): the opcode map, and whole instructions read by their format. -/

namespace Sys2Proof

open Sys2Proof.Machine

/-! ### The opcode map (R65, R67) -/

/-- A byte in no row of R65's table selects `UNMAPPED` and is kept by it. -/
theorem decodeOpcode_of_not_mapped {op : Byte} (h : ∀ r ∈ opcodeTable, op ≠ r.1) : decodeOpcode op = .unmapped op := by
  have noRow : opcodeTable.lookup op = none := List.lookup_eq_none_iff.mpr fun r hr => bne_iff_ne.mpr (h r hr)
  rw [decodeOpcode, noRow]

/-- R64: the opcode byte of a kind determines its format. -/
theorem format_eq_of_wf {i : Instr} (h : i.wf = true) :
    i.format =
      if i.opcode = 0x21#8 ∨ i.opcode = 0xCD#8 then .f2 else if i.opcode = 0x3E#8 then .f1 else .f0 := by
  cases i with
  | ldHLnn => rfl
  | ldAn => rfl
  | incA => rfl
  | decA => rfl
  | jpHL => rfl
  | pushHL => rfl
  | popHL => rfl
  | callnn => rfl
  | ret => rfl
  | unmapped op =>
    have offRow {b : Byte} (hb : isUnmapped b = false) : op ≠ b := fun e => by simp [Instr.wf, e, hb] at h
    simp [Instr.format, Instr.opcode, offRow (b := 0x21#8) rfl, offRow (b := 0xCD#8) rfl, offRow (b := 0x3E#8) rfl]

/-- R64, for the kind a byte selects. -/
theorem format_decodeOpcode (op : Byte) :
    (decodeOpcode op).format = if op = 0x21#8 ∨ op = 0xCD#8 then .f2 else if op = 0x3E#8 then .f1 else .f0 := by
  simpa using format_eq_of_wf (decodeOpcode_wf op)

/-! ### A whole instruction, by the format its opcode selects (R60 to R63) -/

theorem decode_of_format_f0 {op : Byte} (h : (decodeOpcode op).format = .f0) (bs : List Byte) :
    decode (op :: bs) = .ok (⟨decodeOpcode op, .none⟩, bs) := by
  simp [decode, h, takeOperand]

theorem decode_of_format_f1 {op : Byte} (h : (decodeOpcode op).format = .f1) (n : Byte) (bs : List Byte) :
    decode (op :: n :: bs) = .ok (⟨decodeOpcode op, .imm8 n⟩, bs) := by
  simp [decode, h, takeOperand]

theorem decode_of_format_f2 {op : Byte} (h : (decodeOpcode op).format = .f2) (b₁ b₂ : Byte) (bs : List Byte) :
    decode (op :: b₁ :: b₂ :: bs) = .ok (⟨decodeOpcode op, .imm16 (joinBytes b₁ b₂)⟩, bs) := by
  simp [decode, h, takeOperand]

/-- Settles O3: a byte is that of one of the table's nine rows, each evaluated, or of none; format, length and operand then
follow from the laws above. -/
theorem opcodeMapIsTotalAndExact : Obligations.OpcodeMapIsTotalAndExact := by
  refine ⟨fun op => ?_, format_decodeOpcode, fun op => ?_, fun b₁ b₂ => ?_, fun _ h => decode_of_format_f0 h []⟩
  · by_cases mapped : ∃ r ∈ opcodeTable, op = r.1
    · obtain ⟨r, hr, rfl⟩ := mapped
      revert r
      decide
    · push Not at mapped
      rw [decodeOpcode_of_not_mapped mapped]
      simp only [opcodeTable, List.forall_mem_cons] at mapped
      simp [mapped]
  · rw [format_decodeOpcode]
    split_ifs <;> rfl
  · exact ⟨decode_of_format_f2 rfl b₁ b₂ [], decode_of_format_f2 rfl b₁ b₂ [], decode_of_format_f1 rfl b₁ []⟩

end Sys2Proof
end

section
/-! PROOFS. The step cycle family (40_step_cycle.md): what `Fetch8` reads and where it leaves `PC`. -/

namespace Sys2Proof.Machine

/-- Settles O12: at a valid `PC` the read answers and then `PC` advances; at an invalid one the read raises, so the
increment is never reached. -/
theorem fetchReadsThenAdvances : Obligations.FetchReadsThenAdvances :=
  fun _ => ⟨fetch8_of_valid, fetch8_of_invalid⟩

end Sys2Proof.Machine
end

section
/-! PROOFS. The increment and decrement family (42_inc_dec.md): what `INC A` and `DEC A` do once and `k` times, and that
each undoes the other. -/

namespace Sys2Proof.Machine

/-! ### The two operations on a byte (R110, R111, R113) -/

theorem incByte_toNat (x : Byte) : (incByte x).toNat = (x.toNat + 1) % 256 := BitVec.toNat_add x 1

theorem decByte_toNat (x : Byte) : (decByte x).toNat = (x.toNat + 255) % 256 :=
  (BitVec.toNat_sub x 1).trans (by rw [Nat.add_comm]; rfl)

@[simp] theorem decByte_incByte (x : Byte) : decByte (incByte x) = x := BitVec.add_sub_cancel x 1

@[simp] theorem incByte_decByte (x : Byte) : incByte (decByte x) = x := BitVec.sub_add_cancel x 1

/-! ### The two instructions after their fetch -/

@[simp] theorem exec_incA (s : State) : exec .incA s = .next (s.setA (incByte s.a)) := rfl

@[simp] theorem exec_decA (s : State) : exec .decA s = .next (s.setA (decByte s.a)) := rfl

/-- `k` executions of `INC A` add `k` to `A`, modulo 256, and change nothing else. -/
theorem execTimes_incA (k : Nat) (s : State) : execTimes .incA k s = .next (s.setA (s.a + BitVec.ofNat 8 k)) := by
  induction k generalizing s with
  | zero => simp [execTimes]
  | succ k ih =>
    have sum : incByte s.a + BitVec.ofNat 8 k = s.a + BitVec.ofNat 8 (k + 1) := by
      rw [Nat.add_comm, BitVec.ofNat_add]
      exact BitVec.add_assoc s.a 1 (BitVec.ofNat 8 k)
    calc
      execTimes .incA (k + 1) s = execTimes .incA k (s.setA (incByte s.a)) := rfl
      _ = .next (s.setA (incByte s.a + BitVec.ofNat 8 k)) := ih _
      _ = .next (s.setA (s.a + BitVec.ofNat 8 (k + 1))) := by rw [sum]

/-- Settles O43: the operations on `A` are inverse, setting `A` twice is setting it once, and 256 is 0 modulo 256. -/
theorem incrementAndDecrementAreInverse : Obligations.IncrementAndDecrementAreInverse := by
  refine ⟨fun s => ⟨_, exec_incA s, ?_⟩, fun s => ⟨_, exec_decA s, ?_⟩, fun s => ?_⟩
  · simp
  · simp
  · have wraps : s.a + BitVec.ofNat 8 256 = s.a := BitVec.add_zero s.a
    rw [execTimes_incA, wraps, State.setA_self]

/-! ### The whole step (R80) -/

/-- A step at a valid `PC` that holds the opcode byte of a well-formed kind executes that kind after the fetch. -/
theorem step_of_opcode {s : State} {i : Instr} (hw : i.wf = true) (hv : s.valid s.pc) (hop : s.byteAt s.pc = i.opcode) :
    step s = exec i (s.setPC (s.pc + 1)) := by
  rw [step_of_valid hv, hop, decodeOpcode_opcode hw]

/-- Settles O28: 3C selects `INC A` of format F0 (R65), and the step runs it in the state the fetch leaves. -/
theorem incrementAResult : Obligations.IncrementAResult := by
  refine ⟨decode_of_format_f0 rfl [], fun s => ⟨exec_incA s, incByte_toNat s.a⟩, fun s hv hop => ?_⟩
  exact (step_of_opcode (i := .incA) rfl hv hop).trans (exec_incA _)

/-- Settles O29: 3D selects `DEC A` of format F0 (R65), and the step runs it in the state the fetch leaves. -/
theorem decrementAResult : Obligations.DecrementAResult := by
  refine ⟨decode_of_format_f0 rfl [], fun s => ⟨exec_decA s, decByte_toNat s.a⟩, fun s hv hop => ?_⟩
  exact (step_of_opcode (i := .decA) rfl hv hop).trans (exec_decA _)

end Sys2Proof.Machine
end

section
/-! PROOFS. The jump family (43_jump.md): `JP (HL)` goes to `HL` unchecked, and an invalid target faults at the next
fetch only. -/

namespace Sys2Proof.Machine

@[simp] theorem exec_jpHL (s : State) : exec .jpHL s = .next (s.setPC s.hl) := rfl

/-- A step at a valid `PC` that holds E9 leaves `PC = HL`; the jump overwrites the `PC` that the fetch advanced. -/
theorem step_jpHL {s : State} (hv : s.valid s.pc) (hop : s.byteAt s.pc = 0xE9#8) : step s = .next (s.setPC s.hl) := by
  rw [step_of_opcode (i := .jpHL) rfl hv hop, exec_jpHL, State.setPC_hl, State.setPC_setPC]

/-- `JP (HL)` with `HL` at its own opcode changes nothing. -/
theorem step_jpHL_to_itself {s : State} (hv : s.valid s.pc) (hop : s.byteAt s.pc = 0xE9#8) (hself : s.hl = s.pc) :
    step s = .next s := by
  rw [step_jpHL hv hop, hself, State.setPC_self]

/-- `JP (HL)` reports `Ok`, since E9 is mapped (R84, R120). -/
theorem stepOutcome_jpHL {s : State} (hv : s.valid s.pc) (hop : s.byteAt s.pc = 0xE9#8) :
    stepOutcome s = some (.ok, s.setPC s.hl) := by
  have mapped : isUnmapped 0xE9#8 = false := by decide
  simp [stepOutcome_of_next (step_jpHL hv hop), hop, mapped]

/-- Settles O30: E9 selects `JP (HL)` of format F0 (R65), the jump checks nothing, and the step after it is the one that
fetches at `HL`. -/
theorem jumpHlResult : Obligations.JumpHlResult := by
  refine ⟨decode_of_format_f0 rfl [], exec_jpHL, fun s hv hop => ⟨step_jpHL hv hop, stepOutcome_jpHL hv hop, ?_, ?_⟩⟩
  · exact fun target_invalid => step_of_invalid (s := s.setPC s.hl) target_invalid
  · exact step_jpHL_to_itself hv hop

end Sys2Proof.Machine
end

section
/-! PROOFS. The stack family (44_stack.md): where `Pop8` and `Pop16` stop, and that a pop undoes the push before it. -/

namespace Sys2Proof.Machine

/-! ### The pops (R131) -/

theorem pop8_of_valid {s : State} (h : s.valid s.sp) : pop8 s = .ok (s.byteAt s.sp) (s.setSP (s.sp + 1)) := by
  simp [pop8, memRead_of_valid h]

theorem pop8_of_invalid {s : State} (h : ¬ s.valid s.sp) : pop8 s = .stop (.outOfRange s.sp .read s) := by
  simp [pop8, memRead_of_invalid h]

/-- Settles O14: validity of `SP`, then of `SP + 1`, decides which law of `pop8` and `pop16` applies. -/
theorem popReadsLowByteThenHighByte : Obligations.PopReadsLowByteThenHighByte :=
  fun _ => ⟨pop8_of_valid, fun h => ⟨pop8_of_invalid h, pop16_of_first_invalid h⟩, pop16_of_valid,
    pop16_of_second_invalid⟩

/-! ### A pop after a push (R134) -/

/-- A push that completes wrote two cells, and leaves the state `State.pushed`. -/
theorem push16_eq_ok {s t : State} {v : Word} (h : push16 v s = .ok () t) :
    s.valid (s.sp - 1) ∧ s.valid (s.sp - 2) ∧ t = s.pushed v := by
  obtain ⟨hv₁, hv₂, push⟩ | ⟨-, stop⟩ | ⟨-, -, stop⟩ := push16_cases v s
  · rw [push] at h
    cases h
    exact ⟨hv₁, hv₂, rfl⟩
  · cases stop.symm.trans h
  · cases stop.symm.trans h

theorem sub_two_add_one (x : Word) : x - 2 + 1 = x - 1 := by
  rw [← sub_one_sub_one]
  exact BitVec.sub_add_cancel (x - 1) 1

/-- The pop reads the two slots in the reverse order of the push, joins `v` again and brings `SP` back. -/
theorem pop16_pushed {s : State} (v : Word) (hv₁ : s.valid (s.sp - 1)) (hv₂ : s.valid (s.sp - 2)) :
    pop16 (s.pushed v) = .ok v ((s.pushed v).setSP s.sp) := by
  have high : (s.pushed v).sp + 1 = s.sp - 1 := sub_two_add_one s.sp
  have back : (s.pushed v).sp + 2 = s.sp := BitVec.sub_add_cancel s.sp 2
  have highCell : (s.pushed v).valid ((s.pushed v).sp + 1) := high ▸ hv₁
  rw [pop16_of_valid hv₂ highCell, high, back, State.pushed_sp, State.pushed_byteAt_high, State.pushed_byteAt_low,
    joinBytes_hiByte_loByte]

/-- An instruction none of whose bytes is among the changed ones stands as before. -/
theorem standsAt_of_sameMemoryBut {l : List Word} {s t : State} {c : Coded} {a : Word} (h : SameMemoryBut l s t)
    (off : ∀ k < (encode c).length, a + BitVec.ofNat 16 k ∉ l) (stands : StandsAt c a s.mem) : StandsAt c a t.mem :=
  (codeAt_of_sameMemoryBut h off).trans stands

/-- A standing `PUSH HL` pushes `HL` and goes to the byte after it, when its slots are cells (R132). -/
theorem step_of_standing_pushHL {s : State} (h : StandsAt ⟨.pushHL, .none⟩ s.pc s.mem)
    (hv₁ : s.valid (s.sp - 1)) (hv₂ : s.valid (s.sp - 2)) :
    step s = .next ((s.pushed s.hl).setPC (s.pc + 1)) := by
  rw [step_of_standsAt rfl h]
  exact execPushHL_of_push (push16_of_valid (s := s.setPC (s.pc + 1)) s.hl hv₁ hv₂)

/-- A standing `POP HL` run right after a push takes the pushed word into `HL` and brings `SP` back (R133). -/
theorem step_of_standing_popHL_pushed {s : State} {v : Word} (h : StandsAt ⟨.popHL, .none⟩ s.pc (s.pushed v).mem)
    (hv₁ : s.valid (s.sp - 1)) (hv₂ : s.valid (s.sp - 2)) :
    step (s.pushed v) = .next { s.pushed v with hl := v, sp := s.sp, pc := s.pc + 1 } := by
  rw [step_of_standsAt (s := s.pushed v) rfl h]
  exact execPopHL_of_pop (pop16_pushed (s := s.setPC (s.pc + 1)) v hv₁ hv₂)

/-- Settles O45: as primitives by `pop16_pushed`; as instructions, the `POP HL` still stands after the push, which writes
off it, and pops from the very state the push left. -/
theorem popUndoesPush : Obligations.PopUndoesPush := by
  refine ⟨fun v s t h => ?_, fun s push pop hv₁ hv₂ off₁ off₂ => ?_⟩
  · obtain ⟨hv₁, hv₂, rfl⟩ := push16_eq_ok h
    exact pop16_pushed v hv₁ hv₂
  · have stands : StandsAt ⟨.popHL, .none⟩ (s.pc + 1) (s.pushed s.hl).mem := by
      refine standsAt_of_sameMemoryBut (sameMemoryBut_pushed s s.hl) (fun k hk => ?_) pop
      obtain rfl : k = 0 := Nat.lt_one_iff.mp hk
      simpa using ⟨off₁.symm, off₂.symm⟩
    have popped := step_of_standing_popHL_pushed (s := s.setPC (s.pc + 1)) stands hv₁ hv₂
    have run := (runsTo_succ_of_next (step_of_standing_pushHL push hv₁ hv₂)).mpr
      ((runsTo_succ_of_next popped).mpr (runsTo_zero.mpr rfl))
    exact ⟨_, run, rfl, rfl, rfl, BitVec.add_assoc s.pc 1 1, State.pushed_byteAt_high s s.hl,
      State.pushed_byteAt_low s s.hl, sameMemoryBut_pushed s s.hl⟩

end Sys2Proof.Machine
end

section
/-! PROOFS. The linkage family (45_call_return.md): a `RET` goes to the word the push before it left on the stack, so it
undoes the call that reached it. -/

namespace Sys2Proof.Machine

/-- A standing `RET` run right after a push goes to the pushed word and brings `SP` back (R141). -/
theorem step_of_standing_ret_pushed {s : State} {v : Word} (h : StandsAt ⟨.ret, .none⟩ s.pc (s.pushed v).mem)
    (hv₁ : s.valid (s.sp - 1)) (hv₂ : s.valid (s.sp - 2)) :
    step (s.pushed v) = .next { s.pushed v with sp := s.sp, pc := v } := by
  rw [step_of_standsAt (s := s.pushed v) rfl h]
  exact execRet_of_pop (pop16_pushed (s := s.setPC (s.pc + 1)) v hv₁ hv₂)

/-- Settles O46: the call pushes `PC + 3` off its operands and off the `RET`, so the `RET` still stands at `addr` and pops
that word from the very state the call left. -/
theorem returnUndoesCall : Obligations.ReturnUndoesCall := by
  intro s addr call ret hv₁ hv₂ off
  have off₁ : s.pc + 1 ∉ [s.sp - 1, s.sp - 2] := fun mem => (off _ mem).1 rfl
  have off₂ : s.pc + 2 ∉ [s.sp - 1, s.sp - 2] := fun mem => (off _ mem).2.1 rfl
  have off₃ : addr ∉ [s.sp - 1, s.sp - 2] := fun mem => (off _ mem).2.2 rfl
  have stands : StandsAt ⟨.ret, .none⟩ addr (s.pushed (s.pc + 3)).mem := by
    refine standsAt_of_sameMemoryBut (sameMemoryBut_pushed s _) (fun k hk => ?_) ret
    obtain rfl : k = 0 := Nat.lt_one_iff.mp hk
    rwa [BitVec.ofNat_eq_ofNat, BitVec.add_zero]
  have called := step_of_standing_callnn call hv₁ hv₂ off₁ off₂
  have returned := step_of_standing_ret_pushed (s := s.setPC addr) stands hv₁ hv₂
  have run := (runsTo_succ_of_next called).mpr ((runsTo_succ_of_next returned).mpr (runsTo_zero.mpr rfl))
  exact ⟨_, run, rfl, rfl, rfl, rfl, State.pushed_byteAt_high s _, State.pushed_byteAt_low s _⟩

end Sys2Proof.Machine
end

section
/-! PROOFS. The encoding family, whole instructions (30_encoding.md sections 1 to 5): `decode` and `encode` undo each
other. -/

namespace Sys2Proof

open Sys2Proof.Machine

/-! ### The operand (R61 to R63) -/

@[simp] theorem takeOperand_encodeOperand (o : Operand) (rest : List Byte) :
    takeOperand o.format (encodeOperand o ++ rest) = some (o, rest) := by
  cases o with
  | none => rfl
  | imm8 n => rfl
  | imm16 nn => simp [Operand.format, encodeOperand, takeOperand]

/-- What is taken as an operand has the format asked for, and stands in front of what is left. -/
theorem takeOperand_eq_some {f : Format} {bs : List Byte} {o : Operand} {rest : List Byte}
    (h : takeOperand f bs = some (o, rest)) : o.format = f ∧ encodeOperand o ++ rest = bs := by
  fun_cases takeOperand f bs with
  | case1 bs => cases h; exact ⟨rfl, rfl⟩
  | case2 n bs => cases h; exact ⟨rfl, rfl⟩
  | case3 hi lo bs => cases h; exact ⟨rfl, by simp [encodeOperand]⟩
  | case4 => cases h
  | case5 => cases h
  | case6 => cases h

/-! ### The whole instruction (R60) -/

theorem wf_iff {c : Coded} : c.wf = true ↔ c.instr.wf = true ∧ c.operand.format = c.instr.format := by
  simp [Coded.wf]

/-- Everything the decoder can do with an opcode byte: it answers the kind that byte selects with its operand, or rejects
that kind for a missing operand byte. -/
theorem decode_cons_cases (op : Byte) (bs : List Byte) :
    (∃ o rest, takeOperand (decodeOpcode op).format bs = some (o, rest) ∧
        decode (op :: bs) = .ok (⟨decodeOpcode op, o⟩, rest)) ∨
      (takeOperand (decodeOpcode op).format bs = none ∧
        decode (op :: bs) = .error (.operandMissing (decodeOpcode op))) := by
  cases taken : takeOperand (decodeOpcode op).format bs with
  | some p => exact .inl ⟨p.1, p.2, rfl, by simp [decode, taken]⟩
  | none => exact .inr ⟨rfl, by simp [decode, taken]⟩

/-- Settles O1: the opcode byte decodes to its kind, whose format is the operand's, and the operand is taken from its own
bytes. -/
theorem decodeOfEncodeIsTheInstruction : Obligations.DecodeOfEncodeIsTheInstruction := by
  intro ⟨i, o⟩ rest hwf
  obtain ⟨kind, format⟩ := wf_iff.mp hwf
  have opcode : decodeOpcode i.opcode = i := decodeOpcode_opcode kind
  have operand : takeOperand i.format (encodeOperand o ++ rest) = some (o, rest) := by
    rw [← format, takeOperand_encodeOperand]
  simp [encode, decode, opcode, operand]

/-- Settles O2: a decoded kind is well-formed and has the byte read as its opcode (R69), and its operand was taken in the
kind's format from the bytes after it. -/
theorem decodedBytesEncodeBack : Obligations.DecodedBytesEncodeBack := by
  intro bs c rest h
  cases bs with
  | nil => cases h
  | cons op bs =>
    obtain ⟨o, left, taken, answer⟩ | ⟨-, rejected⟩ := decode_cons_cases op bs
    · cases answer.symm.trans h
      obtain ⟨format, bytes⟩ := takeOperand_eq_some taken
      exact ⟨wf_iff.mpr ⟨decodeOpcode_wf op, format⟩, by simp [encode, bytes]⟩
    · cases rejected.symm.trans h

/-- Settles O4: each opcode's format says how the decoder reads on (R61), and the bytes of the words join as written. -/
theorem writtenOutWordsDecode : Obligations.WrittenOutWordsDecode :=
  ⟨decode_of_format_f2 rfl 0x98 0x76 [], decode_of_format_f1 rfl 0xEA [0x3C], decode_of_format_f2 rfl 0x88 0x44 [],
    decode_of_format_f0 rfl [0x12, 0x34], by decide, by decide⟩

end Sys2Proof
end

section
/-! PROOFS. An execution completes, or faults, exactly as `CompletedAs` and `FaultedAs` say: the laws of Laws/Exec.lean read
backwards, for `exec` and for the whole step. -/

namespace Sys2Proof.Machine

theorem add_one_add_one (x : Word) : x + 1 + 1 = x + 2 := BitVec.add_assoc x 1 1

theorem add_one_add_two (x : Word) : x + 1 + 2 = x + 3 := BitVec.add_assoc x 1 2

/-! ### Executions -/

theorem exec_of_completedAs {i : Instr} {s t : State} (h : CompletedAs i s t) : exec i s = .next t := by
  cases i with
  | ldHLnn => obtain ⟨hv₁, hv₂, rfl⟩ := h; exact execLdHLnn_of_fetch (fetchImm16_of_valid hv₁ hv₂)
  | ldAn => obtain ⟨hv, rfl⟩ := h; exact execLdAn_of_fetch (fetch8_of_valid hv)
  | incA => cases h; rfl
  | decA => cases h; rfl
  | jpHL => cases h; rfl
  | pushHL => obtain ⟨hv₁, hv₂, rfl⟩ := h; exact execPushHL_of_push (push16_of_valid _ hv₁ hv₂)
  | popHL => obtain ⟨hv₁, hv₂, rfl⟩ := h; exact execPopHL_of_pop (pop16_of_valid hv₁ hv₂)
  | callnn =>
    obtain ⟨hv₁, hv₂, hv₃, hv₄, rfl⟩ := h
    exact (execCallnn_of_push (push16_of_valid _ hv₁ hv₂)
      (fetchImm16_of_valid (s := s.pushed (returnAddress s.pc)) hv₃ hv₄) :)
  | ret => obtain ⟨hv₁, hv₂, rfl⟩ := h; exact execRet_of_pop (pop16_of_valid hv₁ hv₂)
  | unmapped op => cases h; rfl

theorem exec_eq_next_iff {i : Instr} {s t : State} : exec i s = .next t ↔ CompletedAs i s t := by
  refine ⟨fun h => ?_, exec_of_completedAs⟩
  obtain ⟨-, -, completed⟩ := exec_eq_next h
  exact completed

theorem exec_of_faultedAs {i : Instr} {s t : State} {addr : Word} {kind : AccessKind} (hv : ¬ s.valid addr)
    (h : FaultedAs i s addr kind t) : exec i s = .fault (.outOfRange addr kind t) := by
  cases i with
  | ldHLnn =>
    obtain ⟨rfl, ⟨rfl, rfl⟩ | ⟨hv₁, rfl, rfl⟩⟩ := h
    · exact execLdHLnn_of_stop (fetchImm16_of_first_invalid hv)
    · exact execLdHLnn_of_stop (fetchImm16_of_second_invalid hv₁ hv)
  | ldAn => obtain ⟨rfl, rfl, rfl⟩ := h; exact execLdAn_of_stop (fetch8_of_invalid hv)
  | incA => cases h
  | decA => cases h
  | jpHL => cases h
  | pushHL =>
    obtain ⟨rfl, ⟨rfl, rfl⟩ | ⟨hv₁, rfl, rfl⟩⟩ := h
    · exact execPushHL_of_stop (push16_of_first_invalid _ hv)
    · exact execPushHL_of_stop (push16_of_second_invalid _ hv₁ hv)
  | popHL =>
    obtain ⟨rfl, ⟨rfl, rfl⟩ | ⟨hv₁, rfl, rfl⟩⟩ := h
    · exact execPopHL_of_stop (pop16_of_first_invalid hv)
    · exact execPopHL_of_stop (pop16_of_second_invalid hv₁ hv)
  | callnn =>
    obtain ⟨rfl, ⟨rfl, rfl⟩ | ⟨hv₁, rfl, rfl⟩⟩ | ⟨rfl, hv₁, hv₂, ⟨rfl, rfl⟩ | ⟨hv₃, rfl, rfl⟩⟩ := h
    · exact execCallnn_of_push_stop (push16_of_first_invalid _ hv)
    · exact execCallnn_of_push_stop (push16_of_second_invalid _ hv₁ hv)
    · exact execCallnn_of_fetch_stop (push16_of_valid _ hv₁ hv₂)
        (fetchImm16_of_first_invalid (s := s.pushed (s.pc + 2)) hv)
    · exact execCallnn_of_fetch_stop (push16_of_valid _ hv₁ hv₂)
        (fetchImm16_of_second_invalid (s := s.pushed (s.pc + 2)) hv₃ hv)
  | ret =>
    obtain ⟨rfl, ⟨rfl, rfl⟩ | ⟨hv₁, rfl, rfl⟩⟩ := h
    · exact execRet_of_stop (pop16_of_first_invalid hv)
    · exact execRet_of_stop (pop16_of_second_invalid hv₁ hv)
  | unmapped op => cases h

theorem exec_eq_fault_iff {i : Instr} {s t : State} {addr : Word} {kind : AccessKind} :
    exec i s = .fault (.outOfRange addr kind t) ↔ ¬ s.valid addr ∧ FaultedAs i s addr kind t := by
  refine ⟨fun h => ?_, fun ⟨hv, h⟩ => exec_of_faultedAs hv h⟩
  obtain ⟨-, -, hv, -, -, h⟩ := exec_eq_fault h
  exact ⟨hv, h⟩

/-! ### The whole step (R80): the opcode fetch, then the execution -/

/-- A step completes exactly when its opcode is fetched and the execution completes. -/
theorem step_eq_next_iff {s t : State} :
    step s = .next t ↔ s.valid s.pc ∧ CompletedAs (decodeOpcode (s.byteAt s.pc)) (s.setPC (s.pc + 1)) t := by
  obtain ⟨hv, run⟩ | ⟨hv, run⟩ := step_cases s
  · simp [run, hv]
  · simp [run, hv, exec_eq_next_iff]

/-- A step faults on its opcode fetch, changing nothing, or in the execution. -/
theorem step_eq_fault_iff {s t : State} {addr : Word} {kind : AccessKind} :
    step s = .fault (.outOfRange addr kind t) ↔
      ¬ s.valid addr ∧
        (addr = s.pc ∧ kind = .read ∧ t = s ∨
          s.valid s.pc ∧ FaultedAs (decodeOpcode (s.byteAt s.pc)) (s.setPC (s.pc + 1)) addr kind t) := by
  obtain ⟨hv, run⟩ | ⟨hv, run⟩ := step_cases s
  · rw [run]
    constructor
    · rintro ⟨⟩
      exact ⟨hv, .inl ⟨rfl, rfl, rfl⟩⟩
    · rintro ⟨-, ⟨rfl, rfl, rfl⟩ | ⟨hv', -⟩⟩
      · rfl
      · exact absurd hv' hv
  · rw [run, exec_eq_fault_iff]
    constructor
    · exact fun ⟨hi, h⟩ => ⟨hi, .inr ⟨hv, h⟩⟩
    · rintro ⟨hi, ⟨rfl, -, -⟩ | ⟨-, h⟩⟩
      · exact absurd hv hi
      · exact ⟨hi, h⟩

/-- A fault leaves `HL` and `A` as they were (R157). -/
theorem registers_of_step_fault {s t : State} {addr : Word} {kind : AccessKind}
    (h : step s = .fault (.outOfRange addr kind t)) : t.hl = s.hl ∧ t.a = s.a := by
  obtain ⟨-, run⟩ | ⟨-, run⟩ := step_cases s
  · cases run.symm.trans h
    exact ⟨rfl, rfl⟩
  · obtain ⟨-, -, -, hl, a, -⟩ := exec_eq_fault (run.symm.trans h)
    exact ⟨hl, a⟩

/-- The opcode byte at `PC` names the kind (R65, R67). -/
theorem decodeOpcode_eq_iff {op : Byte} {i : Instr} (hw : i.wf = true) : decodeOpcode op = i ↔ op = i.opcode :=
  ⟨fun h => by rw [← h, opcode_decodeOpcode], fun h => by rw [h, decodeOpcode_opcode hw]⟩

end Sys2Proof.Machine
end

section
/-! PROOFS. The data invariant: what every step keeps of memory. -/

namespace Sys2Proof.Machine

/-- Settles O9: a fault on the opcode fetch changes nothing, and every execution keeps the size and the canonical form, also
one that faults. -/
theorem stepKeepsMemoryCanonical : Obligations.StepKeepsMemoryCanonical := by
  intro s canonical
  obtain ⟨-, run⟩ | ⟨-, run⟩ := step_cases s
  · rw [run]
    refine ⟨fun t h => (nomatch h), fun addr kind t h => ?_⟩
    cases h
    exact ⟨canonical, rfl⟩
  · rw [run]
    refine ⟨fun t h => ?_, fun addr kind t h => ?_⟩
    · obtain ⟨size, keeps, -⟩ := exec_eq_next h
      exact ⟨keeps canonical, size⟩
    · obtain ⟨size, keeps, -⟩ := exec_eq_fault h
      exact ⟨keeps canonical, size⟩

end Sys2Proof.Machine
end

section
/-! PROOFS. Noninterference: what the values of `A` and of `HL` can influence (10_state.md section 4, R25, R32, R145). -/

namespace Sys2Proof.Machine

/-! ### `A` -/

/-- Only `INC A` and `DEC A` look at `A`, and they load it alone. -/
theorem completedAs_setA {i : Instr} {s t : State} (x : Byte) (h : CompletedAs i s t) :
    ∃ y, CompletedAs i (s.setA x) (t.setA y) := by
  cases i with
  | ldHLnn => obtain ⟨hv₁, hv₂, rfl⟩ := h; exact ⟨x, hv₁, hv₂, rfl⟩
  | ldAn => obtain ⟨hv, rfl⟩ := h; exact ⟨s.byteAt s.pc, hv, rfl⟩
  | incA => cases h; exact ⟨x + 1, rfl⟩
  | decA => cases h; exact ⟨x - 1, rfl⟩
  | jpHL => cases h; exact ⟨x, rfl⟩
  | pushHL => obtain ⟨hv₁, hv₂, rfl⟩ := h; exact ⟨x, hv₁, hv₂, rfl⟩
  | popHL => obtain ⟨hv₁, hv₂, rfl⟩ := h; exact ⟨x, hv₁, hv₂, rfl⟩
  | callnn => obtain ⟨hv₁, hv₂, hv₃, hv₄, rfl⟩ := h; exact ⟨x, hv₁, hv₂, hv₃, hv₄, rfl⟩
  | ret => obtain ⟨hv₁, hv₂, rfl⟩ := h; exact ⟨x, hv₁, hv₂, rfl⟩
  | unmapped op => cases h; exact ⟨x, rfl⟩

/-- A step that completes does so with any other value in `A`, and its next state differs at most in `A`. -/
theorem step_setA {s t : State} (x : Byte) (h : step s = .next t) : ∃ y, step (s.setA x) = .next (t.setA y) := by
  obtain ⟨hv, completed⟩ := step_eq_next_iff.mp h
  obtain ⟨y, completed'⟩ := completedAs_setA x completed
  exact ⟨y, step_eq_next_iff.mpr ⟨hv, completed'⟩⟩

/-- No kind looks at `A` before it faults, and only `PUSH HL` looks at `HL`. One lemma for both registers, since the split
over the faults is the same. -/
theorem faultedAs_setHL_setA {i : Instr} {s t : State} {addr : Word} {kind : AccessKind} {v : Word} (x : Byte)
    (pushed : i = .pushHL → v = s.hl) (h : FaultedAs i s addr kind t) :
    FaultedAs i ((s.setHL v).setA x) addr kind ((t.setHL v).setA x) := by
  cases i with
  | ldHLnn =>
    obtain ⟨rfl, ⟨rfl, rfl⟩ | ⟨hv₁, rfl, rfl⟩⟩ := h
    · exact ⟨rfl, .inl ⟨rfl, rfl⟩⟩
    · exact ⟨rfl, .inr ⟨hv₁, rfl, rfl⟩⟩
  | ldAn => obtain ⟨rfl, rfl, rfl⟩ := h; exact ⟨rfl, rfl, rfl⟩
  | incA => cases h
  | decA => cases h
  | jpHL => cases h
  | pushHL =>
    obtain rfl := pushed rfl
    obtain ⟨rfl, ⟨rfl, rfl⟩ | ⟨hv₁, rfl, rfl⟩⟩ := h
    · exact ⟨rfl, .inl ⟨rfl, rfl⟩⟩
    · exact ⟨rfl, .inr ⟨hv₁, rfl, rfl⟩⟩
  | popHL =>
    obtain ⟨rfl, ⟨rfl, rfl⟩ | ⟨hv₁, rfl, rfl⟩⟩ := h
    · exact ⟨rfl, .inl ⟨rfl, rfl⟩⟩
    · exact ⟨rfl, .inr ⟨hv₁, rfl, rfl⟩⟩
  | callnn =>
    obtain ⟨rfl, ⟨rfl, rfl⟩ | ⟨hv₁, rfl, rfl⟩⟩ | ⟨rfl, hv₁, hv₂, ⟨rfl, rfl⟩ | ⟨hv₃, rfl, rfl⟩⟩ := h
    · exact .inl ⟨rfl, .inl ⟨rfl, rfl⟩⟩
    · exact .inl ⟨rfl, .inr ⟨hv₁, rfl, rfl⟩⟩
    · exact .inr ⟨rfl, hv₁, hv₂, .inl ⟨rfl, rfl⟩⟩
    · exact .inr ⟨rfl, hv₁, hv₂, .inr ⟨hv₃, rfl, rfl⟩⟩
  | ret =>
    obtain ⟨rfl, ⟨rfl, rfl⟩ | ⟨hv₁, rfl, rfl⟩⟩ := h
    · exact ⟨rfl, .inl ⟨rfl, rfl⟩⟩
    · exact ⟨rfl, .inr ⟨hv₁, rfl, rfl⟩⟩
  | unmapped op => cases h

/-- A step that faults does so at the same access with other values in `A` and `HL`, unless it is a `PUSH HL` and `HL` is
another. -/
theorem step_fault_setHL_setA {s t : State} {addr : Word} {kind : AccessKind} {v : Word} (x : Byte)
    (pushed : decodeOpcode (s.byteAt s.pc) = .pushHL → v = s.hl) (h : step s = .fault (.outOfRange addr kind t)) :
    step ((s.setHL v).setA x) = .fault (.outOfRange addr kind ((t.setHL v).setA x)) := by
  obtain ⟨hi, ⟨rfl, rfl, rfl⟩ | ⟨hv, faulted⟩⟩ := step_eq_fault_iff.mp h
  · exact step_eq_fault_iff.mpr ⟨hi, .inl ⟨rfl, rfl, rfl⟩⟩
  · exact step_eq_fault_iff.mpr ⟨hi, .inr ⟨hv, faultedAs_setHL_setA (s := s.setPC (s.pc + 1)) x pushed faulted⟩⟩

/-- Settles O41: one step by `step_setA` and `step_fault_setHL_setA` with `HL` kept; a run by induction on its length. -/
theorem accumulatorInfluencesNothingElse : Obligations.AccumulatorInfluencesNothingElse := by
  refine ⟨fun s x => ⟨fun t => step_setA x, fun addr kind t h => ?_⟩, fun k => ?_⟩
  · obtain ⟨hl, -⟩ := registers_of_step_fault h
    have faults := step_fault_setHL_setA x (fun _ => hl) h
    rwa [State.setHL_self, hl] at faults
  · induction k with
    | zero =>
      intro s t x run
      cases runsTo_zero.mp run
      exact ⟨x, runsTo_zero.mpr rfl⟩
    | succ k ih =>
      intro s t x run
      obtain ⟨u, first, rest⟩ := runsTo_succ.mp run
      obtain ⟨y, first'⟩ := step_setA x first
      obtain ⟨z, rest'⟩ := ih u t y rest
      exact ⟨z, runsTo_succ.mpr ⟨u.setA y, first', rest'⟩⟩

/-! ### `HL` -/

/-- No kind but `JP (HL)` and `PUSH HL` looks at `HL`; two kinds load it, the others keep it. -/
theorem completedAs_setHL {i : Instr} {s t : State} (v : Word) (jump : i ≠ .jpHL) (push : i ≠ .pushHL)
    (h : CompletedAs i s t) :
    CompletedAs i (s.setHL v) (t.setHL (if i = .ldHLnn ∨ i = .popHL then t.hl else v)) := by
  cases i with
  | ldHLnn => obtain ⟨hv₁, hv₂, rfl⟩ := h; exact ⟨hv₁, hv₂, rfl⟩
  | ldAn => obtain ⟨hv, rfl⟩ := h; exact ⟨hv, rfl⟩
  | incA => cases h; rfl
  | decA => cases h; rfl
  | jpHL => exact absurd rfl jump
  | pushHL => exact absurd rfl push
  | popHL => obtain ⟨hv₁, hv₂, rfl⟩ := h; exact ⟨hv₁, hv₂, rfl⟩
  | callnn => obtain ⟨hv₁, hv₂, hv₃, hv₄, rfl⟩ := h; exact ⟨hv₁, hv₂, hv₃, hv₄, rfl⟩
  | ret => obtain ⟨hv₁, hv₂, rfl⟩ := h; exact ⟨hv₁, hv₂, rfl⟩
  | unmapped op => cases h; rfl

/-- Settles O42: the opcode byte tells the kind, so the premises exclude the two kinds that look at `HL`. -/
theorem hlInfluencesOnlyJumpAndPush : Obligations.HlInfluencesOnlyJumpAndPush := by
  intro s v notJump notPush
  have jump : decodeOpcode (s.byteAt s.pc) ≠ .jpHL := mt (decodeOpcode_eq_iff rfl).mp notJump
  have push : decodeOpcode (s.byteAt s.pc) ≠ .pushHL := mt (decodeOpcode_eq_iff rfl).mp notPush
  refine ⟨fun t h => ?_, fun addr kind t h => ?_⟩
  · obtain ⟨hv, completed⟩ := step_eq_next_iff.mp h
    have completed' := completedAs_setHL v jump push completed
    simp only [decodeOpcode_eq_iff (i := .ldHLnn) rfl, decodeOpcode_eq_iff (i := .popHL) rfl] at completed'
    exact step_eq_next_iff.mpr ⟨hv, completed'⟩
  · obtain ⟨-, a⟩ := registers_of_step_fault h
    have faults := step_fault_setHL_setA (v := v) s.a (fun kind => absurd kind push) h
    have kept : (t.setHL v).setA s.a = t.setHL v := by rw [← a]; rfl
    rwa [kept] at faults

end Sys2Proof.Machine
end

section
/-! PROOFS. Bytes and words as numbers (42_inc_dec.md R113), the state at creation (10_state.md R34), and the contents a
canonical memory can have. -/

namespace Sys2Proof.Machine

theorem hiByte_toNat (v : Word) : (hiByte v).toNat = v.toNat / 256 := by
  have split := joinBytes_toNat (hiByte v) (loByte v)
  rw [joinBytes_hiByte_loByte] at split
  have := (loByte v).isLt
  omega

theorem loByte_toNat (v : Word) : (loByte v).toNat = v.toNat % 256 := by
  have split := joinBytes_toNat (hiByte v) (loByte v)
  rw [joinBytes_hiByte_loByte] at split
  have := (loByte v).isLt
  omega

/-- Settles O5: the library's laws of bit vectors, and the split of a word by `joinBytes_toNat`. -/
theorem arithmeticWrapsAndSplitsExactly : Obligations.ArithmeticWrapsAndSplitsExactly :=
  ⟨incByte_toNat, decByte_toNat, fun x => ⟨BitVec.toNat_add x 1, by simp [BitVec.toNat_sub, Nat.add_comm]⟩,
    fun pc => BitVec.toNat_add pc 2, joinBytes_toNat,
    fun v => ⟨hiByte_toNat v, loByte_toNat v, joinBytes_hiByte_loByte v⟩⟩

/-! ### Creation (R34, R180) -/

/-- Both sizes fit the 16 bits of `SP`, so the highest valid address is not cut. -/
theorem created_sp_toNat (size : MemSize) (hl : Word) (a : Byte) (cells : List Host.Cell) :
    (State.created size hl a cells).sp.toNat = size.cells - 1 := by
  cases size <;> rfl

/-- Settles O6: `SP` by `created_sp_toNat`, the other fields as given. -/
theorem creationLeavesTheStatedValues : Obligations.CreationLeavesTheStatedValues := by
  intro size hl a cells
  have sp := created_sp_toNat size hl a cells
  have pos : 0 < size.cells := by cases size <;> decide
  refine ⟨rfl, ?_, ?_, rfl, rfl, rfl, rfl, rfl⟩
  · omega
  · show (State.created size hl a cells).sp.toNat < size.cells
    omega

theorem wf_of_nothing_listed (size : MemSize) : (Memory.mk size []).wf :=
  ⟨List.Pairwise.nil, fun _ listed => nomatch listed⟩

/-- Settles O7: `State.reset` is the creation with `Config`'s values; a memory with nothing listed is canonical and reads
as `Config.unlistedByte` everywhere. -/
theorem resetIsACanonicalCreation : Obligations.ResetIsACanonicalCreation :=
  ⟨rfl, wf_of_nothing_listed _, rfl, fun _ => rfl⟩

/-! ### Every content (R34, log 4) -/

/-- The memory whose first `k` cells hold the given content, the others unlisted. -/
def filled (size : MemSize) (content : Nat → Byte) : Nat → Memory
  | 0 => ⟨size, []⟩
  | k + 1 => (filled size content k).set k (content k)

@[simp] theorem filled_size (size : MemSize) (content : Nat → Byte) (k : Nat) : (filled size content k).size = size := by
  induction k with
  | zero => rfl
  | succ k ih => exact ih

theorem filled_wf (size : MemSize) (content : Nat → Byte) {k : Nat} (hk : k ≤ size.cells) :
    (filled size content k).wf := by
  induction k with
  | zero => exact wf_of_nothing_listed size
  | succ k ih => exact Memory.set_wf _ (ih (Nat.le_of_succ_le hk)) (by simpa [Memory.valid] using hk)

theorem get_filled (size : MemSize) (content : Nat → Byte) {k n : Nat} (hn : n < k) :
    (filled size content k).get n = content n := by
  induction k with
  | zero => cases hn
  | succ k ih =>
    obtain rfl | other := eq_or_ne k n
    · exact Memory.get_set_same ..
    · exact (Memory.get_set_other _ _ other).trans (ih (by omega))

/-- Settles O8: the memory with every cell filled. -/
theorem everyContentIsSomeCanonicalMemory : Obligations.EveryContentIsSomeCanonicalMemory := by
  intro size content
  refine ⟨filled size content size.cells, filled_wf size content le_rfl, filled_size .., fun n hn => ?_⟩
  exact get_filled size content (by simpa [Memory.valid] using hn)

end Sys2Proof.Machine
end

section
/-! PROOFS. The step cycle family, whole instructions (40_step_cycle.md R80 to R83): a step and what `decode` reads at
`PC`. -/

namespace Sys2Proof.Machine

/-- Settles O15: with a byte at `PC` the decoder answers or rejects the kind that byte selects, and the step executes that
kind; with none there is no code to decode, and the fetch faults. -/
theorem stepRunsTheDecodedInstruction : Obligations.StepRunsTheDecodedInstruction := by
  intro s
  by_cases hv : s.valid s.pc
  · have run := step_of_valid hv
    rw [codeAt_of_valid hv]
    obtain ⟨o, left, -, decoded⟩ | ⟨-, decoded⟩ := decode_cons_cases (s.mem.get s.pc.toNat) (codeAt s.mem 2 (s.pc + 1))
    · rw [decoded]
      refine ⟨fun c rest h => ?_, fun i h => (nomatch h), fun h => (nomatch h)⟩
      cases h
      exact run
    · rw [decoded]
      refine ⟨fun c rest h => (nomatch h), fun i h => ?_, fun h => (nomatch h)⟩
      cases h
      exact run
  · rw [codeAt_of_invalid hv]
    exact ⟨fun c rest h => (nomatch h), fun i h => (nomatch h), fun _ => step_of_invalid hv⟩

/-! ### An instruction placed at `PC` (log 8) -/

@[simp] theorem placeBytes_size (bs : List Byte) (addr : Word) (m : Memory) : (placeBytes bs addr m).size = m.size := by
  induction bs generalizing addr m with
  | nil => rfl
  | cons b rest ih =>
    rw [placeBytes, ih]
    split <;> rfl

/-- Placing bytes leaves every cell they are not placed at. -/
theorem placeBytes_get_other {bs : List Byte} {addr : Word} {m : Memory} {n : Nat}
    (off : ∀ k < bs.length, (addr + BitVec.ofNat 16 k).toNat ≠ n) : (placeBytes bs addr m).get n = m.get n := by
  induction bs generalizing addr m with
  | nil => rfl
  | cons b rest ih =>
    have first : addr.toNat ≠ n := by simpa using off 0 (Nat.succ_pos _)
    have others : ∀ k < rest.length, (addr + 1 + BitVec.ofNat 16 k).toNat ≠ n := fun k hk => by
      have := off (k + 1) (Nat.succ_lt_succ hk)
      rwa [Nat.add_comm, BitVec.ofNat_add, ← BitVec.add_assoc] at this
    rw [placeBytes, ih others]
    split
    · exact Memory.get_set_other _ _ first
    · rfl

/-- The first of few bytes placed is read back: the others are placed at other addresses. -/
theorem placeBytes_get_first {b : Byte} {bs : List Byte} {addr : Word} {m : Memory} (hv : m.valid addr.toNat)
    (few : bs.length < 2 ^ 16) : (placeBytes (b :: bs) addr m).get addr.toNat = b := by
  have off : ∀ k < bs.length, (addr + 1 + BitVec.ofNat 16 k).toNat ≠ addr.toNat := by
    intro k hk
    bv_omega
  rw [placeBytes, placeBytes_get_other off, if_pos hv, Memory.get_set_same]

/-- The decoder reads the kind of a table word off its first byte. -/
theorem decodeTableWord_eq_some {nbits w : Nat} {i : Instr} (h : decodeTableWord nbits w = some i) :
    decodeOpcode (BitVec.ofNat 8 (w % 2 ^ nbits)) = i := by
  obtain ⟨o, left, -, decoded⟩ | ⟨-, decoded⟩ := decode_cons_cases (BitVec.ofNat 8 (w % 2 ^ nbits))
    [BitVec.ofNat 8 (w % 2 ^ nbits / 2 ^ 8), BitVec.ofNat 8 (w % 2 ^ nbits / 2 ^ 16)]
  · rw [decodeTableWord, tableBytes, decoded] at h
    exact Option.some.inj h
  · rw [decodeTableWord, tableBytes, decoded] at h
    cases h

/-- Settles O17: the byte at `PC` after the placing is the word's first, which the decoder reads as `i`. -/
theorem placedWordIsFetchedAndRun : Obligations.PlacedWordIsFetchedAndRun := by
  intro s nbits w i hv decoded
  have placed : (s.withFetchWord nbits w).byteAt s.pc = BitVec.ofNat 8 (w % 2 ^ nbits) :=
    placeBytes_get_first hv (by simp)
  have hv' : (s.withFetchWord nbits w).valid s.pc := by
    simpa [State.withFetchWord, Memory.valid] using hv
  have run := step_of_valid (s := s.withFetchWord nbits w) hv'
  rwa [show (s.withFetchWord nbits w).pc = s.pc from rfl, placed, decodeTableWord_eq_some decoded] at run

end Sys2Proof.Machine
end

section
/-! PROOFS. The results of the instructions: what each completes with, and where each faults (41_load_immediate.md,
44_stack.md, 45_call_return.md, 40_step_cycle.md R85). The state a fault leaves is the spec's decision D6 (log 5). -/

namespace Sys2Proof.Machine

/-- Settles O13: validity of `SP - 1`, then of `SP - 2`, decides which law of `push8` and `push16` applies. -/
theorem pushStoresHighByteThenLowByte : Obligations.PushStoresHighByteThenLowByte := by
  refine fun s => ⟨fun b hv => ?_, push8_of_invalid, fun v hv₁ hv₂ => ?_, push16_of_first_invalid, fun v hv₁ hv₂ => ?_⟩
  · exact ⟨_, push8_of_valid b hv, rfl, Memory.get_set_same .., sameMemoryBut_set s _ b, rfl, rfl, rfl⟩
  · exact ⟨_, push16_of_valid v hv₁ hv₂, rfl, State.pushed_byteAt_high s v, State.pushed_byteAt_low s v,
      sameMemoryBut_pushed s v, rfl, rfl, rfl⟩
  · exact ⟨_, push16_of_second_invalid v hv₁ hv₂, rfl, State.pushedHigh_byteAt_high s v, sameMemoryBut_pushedHigh s v,
      rfl, rfl, rfl⟩

/-- Settles O26: validity of the two operand addresses decides; the halves of `HL` are the bytes joined. -/
theorem loadHlResult : Obligations.LoadHlResult := by
  refine fun s => ⟨fun hv₁ hv₂ => ?_, fun hv₁ => ?_, fun hv₁ hv₂ => ?_⟩
  · exact ⟨_, exec_of_completedAs (i := .ldHLnn) ⟨hv₁, hv₂, rfl⟩, rfl, hiByte_joinBytes .., loByte_joinBytes ..⟩
  · exact exec_of_faultedAs (i := .ldHLnn) hv₁ ⟨rfl, .inl ⟨rfl, rfl⟩⟩
  · exact exec_of_faultedAs (i := .ldHLnn) hv₂ ⟨rfl, .inr ⟨hv₁, rfl, rfl⟩⟩

/-- Settles O27: validity of the one operand address decides. -/
theorem loadAResult : Obligations.LoadAResult :=
  fun _ => ⟨fun hv => exec_of_completedAs (i := .ldAn) ⟨hv, rfl⟩,
    fun hv => exec_of_faultedAs (i := .ldAn) hv ⟨rfl, rfl, rfl⟩⟩

/-- Settles O31: validity of the two slots decides, and `H` and `L` are the bytes of the word pushed. -/
theorem pushHlResult : Obligations.PushHlResult := by
  refine fun s => ⟨fun hv₁ hv₂ => ?_, fun hv₁ => ?_, fun hv₁ hv₂ => ?_⟩
  · exact ⟨_, exec_of_completedAs (i := .pushHL) ⟨hv₁, hv₂, rfl⟩, rfl, State.pushed_byteAt_high s s.hl,
      State.pushed_byteAt_low s s.hl, sameMemoryBut_pushed s s.hl, rfl, rfl, rfl⟩
  · exact exec_of_faultedAs (i := .pushHL) hv₁ ⟨rfl, .inl ⟨rfl, rfl⟩⟩
  · exact ⟨_, exec_of_faultedAs (i := .pushHL) hv₂ ⟨rfl, .inr ⟨hv₁, rfl, rfl⟩⟩, rfl, State.pushedHigh_byteAt_high s s.hl,
      sameMemoryBut_pushedHigh s s.hl, rfl, rfl, rfl⟩

/-- Settles O32: validity of `SP`, then of `SP + 1`, decides. -/
theorem popHlResult : Obligations.PopHlResult :=
  fun _ => ⟨fun hv₁ hv₂ => exec_of_completedAs (i := .popHL) ⟨hv₁, hv₂, rfl⟩,
    fun hv₁ => exec_of_faultedAs (i := .popHL) hv₁ ⟨rfl, .inl ⟨rfl, rfl⟩⟩,
    fun hv₁ hv₂ => exec_of_faultedAs (i := .popHL) hv₂ ⟨rfl, .inr ⟨hv₁, rfl, rfl⟩⟩⟩

/-- Settles O34: validity of `SP`, then of `SP + 1`, decides. -/
theorem returnResult : Obligations.ReturnResult :=
  fun _ => ⟨fun hv₁ hv₂ => exec_of_completedAs (i := .ret) ⟨hv₁, hv₂, rfl⟩,
    fun hv₁ => exec_of_faultedAs (i := .ret) hv₁ ⟨rfl, .inl ⟨rfl, rfl⟩⟩,
    fun hv₁ hv₂ => exec_of_faultedAs (i := .ret) hv₂ ⟨rfl, .inr ⟨hv₁, rfl, rfl⟩⟩⟩

/-- Settles O33: validity of the four addresses in their order decides; once both pushes are done, the bytes of the return
address stand in memory whether the operand is fetched or not. -/
theorem callResult : Obligations.CallResult := by
  intro s
  have high := State.pushed_byteAt_high s (s.pc + 2)
  have low := State.pushed_byteAt_low s (s.pc + 2)
  have frame := sameMemoryBut_pushed s (s.pc + 2)
  refine ⟨fun hv₁ hv₂ hv₃ hv₄ => ?_, fun hv₁ => ?_, fun hv₁ hv₂ => ?_, fun hv₁ hv₂ hv₃ => ?_,
    fun hv₁ hv₂ hv₃ hv₄ => ?_⟩
  · exact ⟨_, exec_of_completedAs (i := .callnn) ⟨hv₁, hv₂, hv₃, hv₄, rfl⟩, rfl, high, low, frame, rfl, rfl, rfl⟩
  · exact exec_of_faultedAs (i := .callnn) hv₁ (.inl ⟨rfl, .inl ⟨rfl, rfl⟩⟩)
  · exact ⟨_, exec_of_faultedAs (i := .callnn) hv₂ (.inl ⟨rfl, .inr ⟨hv₁, rfl, rfl⟩⟩), rfl, rfl,
      State.pushedHigh_byteAt_high s _, sameMemoryBut_pushedHigh s _, rfl, rfl⟩
  · exact ⟨_, exec_of_faultedAs (i := .callnn) hv₃ (.inr ⟨rfl, hv₁, hv₂, .inl ⟨rfl, rfl⟩⟩), rfl, rfl, high, low, frame,
      rfl, rfl⟩
  · exact ⟨_, exec_of_faultedAs (i := .callnn) hv₄ (.inr ⟨rfl, hv₁, hv₂, .inr ⟨hv₃, rfl, rfl⟩⟩), rfl, rfl, high, low,
      frame, rfl, rfl⟩

/-- Settles O36: the call goes to the word at `PC` in the memory its pushes leave, and `SP` tells which of the two bytes
each slot overwrote. -/
theorem callOverItsOwnOperands : Obligations.CallOverItsOwnOperands := by
  intro s hv₁ hv₂ hv₃ hv₄
  have run := exec_of_completedAs (i := .callnn) ⟨hv₁, hv₂, hv₃, hv₄, rfl⟩
  have high := State.pushed_byteAt_high s (s.pc + 2)
  have low := State.pushed_byteAt_low s (s.pc + 2)
  refine ⟨fun hsp => ⟨_, run, ?_⟩, fun hsp => ⟨_, run, ?_, ?_⟩, fun hsp => ⟨_, run, ?_⟩⟩
  · have slot₁ : s.sp - 1 = s.pc + 1 := by bv_omega
    have slot₂ : s.sp - 2 = s.pc := by bv_omega
    rw [slot₁] at high
    rw [slot₂] at low
    exact congrArg₂ joinBytes low high
  · have slot₁ : s.sp - 1 = s.pc := by bv_omega
    have kept : (s.pushed (s.pc + 2)).byteAt (s.pc + 1) = s.byteAt (s.pc + 1) :=
      State.pushed_byteAt_other s _ (by bv_omega) (by bv_omega)
    rw [slot₁] at high
    exact congrArg₂ joinBytes high kept
  · have slot₂ : s.sp - 2 = s.pc - 1 := by bv_omega
    rwa [slot₂] at low
  · have slot₂ : s.sp - 2 = s.pc + 1 := by bv_omega
    have kept : (s.pushed (s.pc + 2)).byteAt s.pc = s.byteAt s.pc :=
      State.pushed_byteAt_other s _ (by bv_omega) (by bv_omega)
    rw [slot₂] at low
    exact congrArg₂ joinBytes kept low

end Sys2Proof.Machine
end

section
/-! PROOFS. How a step ends: it completes or it raises `OutOfRange`, at the first access whose address is no cell
(40_step_cycle.md R84, R90; 60_exceptions.md R151 to R157; 20_memory.md R41). -/

namespace Sys2Proof.Machine

/-! ### Every step ends (R90) -/

theorem step_completes_or_faults (s : State) :
    (∃ t, step s = .next t) ∨ ∃ addr kind t, step s = .fault (.outOfRange addr kind t) := by
  obtain ⟨-, run⟩ | ⟨-, run⟩ := step_cases s
  · exact .inr ⟨_, _, _, run⟩
  · cases h : exec (decodeOpcode (s.byteAt s.pc)) (s.setPC (s.pc + 1)) with
    | next t => exact .inl ⟨t, run.trans h⟩
    | fault f =>
      obtain ⟨addr, kind, t⟩ := f
      exact .inr ⟨addr, kind, t, run.trans h⟩
    | refused r => exact absurd h (exec_ne_refused _ _ r)

/-- Settles O18: either end of a step has an outcome, and neither is a refusal. -/
theorem stepIsTotal : Obligations.StepIsTotal := by
  intro s
  obtain ⟨t, h⟩ | ⟨addr, kind, t, h⟩ := step_completes_or_faults s
  · exact ⟨⟨_, _, stepOutcome_of_next h⟩, fun r => by simp [h]⟩
  · exact ⟨⟨_, _, stepOutcome_of_fault h⟩, fun r => by simp [h]⟩

/-! ### Where `OutOfRange` can arise (R41, R151) -/

/-- The only 16-bit address that can be no cell is the highest, in the smaller memory. -/
theorem not_valid_iff {s : State} {addr : Word} :
    ¬ s.valid addr ↔ s.mem.size = .cells65535 ∧ addr = 0xFFFF#16 := by
  have := addr.isLt
  cases size : s.mem.size with
  | cells65535 => simp only [State.valid, Memory.valid, size, MemSize.cells, true_and]; bv_omega
  | cells65536 => simpa [State.valid, Memory.valid, size, MemSize.cells] using this

/-- Settles O20: the faulting address is no cell. -/
theorem outOfRangeOnlyAtTheTopOfTheSmallerMemory : Obligations.OutOfRangeOnlyAtTheTopOfTheSmallerMemory := by
  intro s addr kind t h
  obtain ⟨invalid, -⟩ := step_eq_fault_iff.mp h
  exact not_valid_iff.mp invalid

/-- With 65536 cells a step completes, and there are as many cells after it. -/
theorem step_of_larger {s : State} (size : s.mem.size = .cells65536) :
    ∃ t, step s = .next t ∧ t.mem.size = .cells65536 := by
  obtain ⟨t, h⟩ | ⟨addr, kind, t, h⟩ := step_completes_or_faults s
  · obtain ⟨-, run⟩ | ⟨-, run⟩ := step_cases s
    · exact nomatch run.symm.trans h
    · obtain ⟨kept, -, -⟩ := exec_eq_next (run.symm.trans h)
      exact ⟨t, h, kept.trans size⟩
  · obtain ⟨smaller, -⟩ := outOfRangeOnlyAtTheTopOfTheSmallerMemory s addr kind t h
    exact nomatch size.symm.trans smaller

/-- Settles O21, by induction on the number of steps. -/
theorem noRunFaultsWithTheLargerMemory : Obligations.NoRunFaultsWithTheLargerMemory := by
  intro k
  induction k with
  | zero => exact fun s _ => ⟨s, runsTo_zero.mpr rfl⟩
  | succ k ih =>
    intro s size
    obtain ⟨t, first, size'⟩ := step_of_larger size
    obtain ⟨u, rest⟩ := ih t size'
    exact ⟨u, (runsTo_succ_of_next first).mpr rest⟩

/-! ### The first invalid access (R152, R155) -/

theorem firstInvalid_cons_of_valid {m : Memory} {x : AccessKind × Word} (l : List (AccessKind × Word))
    (h : m.valid x.2.toNat) : firstInvalid m (x :: l) = firstInvalid m l := by
  simp [firstInvalid, h]

theorem firstInvalid_cons_of_invalid {m : Memory} {x : AccessKind × Word} (l : List (AccessKind × Word))
    (h : ¬ m.valid x.2.toNat) : firstInvalid m (x :: l) = some x := by
  simp [firstInvalid, h]

theorem firstInvalid_pair_of_valid {m : Memory} {x y : AccessKind × Word} (l : List (AccessKind × Word))
    (hx : m.valid x.2.toNat) (hy : m.valid y.2.toNat) : firstInvalid m (x :: y :: l) = firstInvalid m l := by
  rw [firstInvalid_cons_of_valid _ hx, firstInvalid_cons_of_valid _ hy]

/-- An execution that completes made no access of its row at an invalid address. -/
theorem firstInvalid_of_completedAs {i : Instr} {s t : State} (h : CompletedAs i (s.setPC (s.pc + 1)) t) :
    firstInvalid s.mem (accessesAfterOpcode i s.pc s.sp) = none := by
  cases i with
  | ldHLnn =>
    obtain ⟨hv₁, hv₂, -⟩ := h
    rw [State.setPC_pc, add_one_add_one] at hv₂
    exact firstInvalid_pair_of_valid [] hv₁ hv₂
  | ldAn => obtain ⟨hv, -⟩ := h; exact firstInvalid_cons_of_valid [] hv
  | incA => rfl
  | decA => rfl
  | jpHL => rfl
  | pushHL => obtain ⟨hv₁, hv₂, -⟩ := h; exact firstInvalid_pair_of_valid [] hv₁ hv₂
  | popHL => obtain ⟨hv₁, hv₂, -⟩ := h; exact firstInvalid_pair_of_valid [] hv₁ hv₂
  | callnn =>
    obtain ⟨hv₁, hv₂, hv₃, hv₄, -⟩ := h
    rw [State.setPC_pc, add_one_add_one] at hv₄
    exact (firstInvalid_pair_of_valid _ hv₁ hv₂).trans (firstInvalid_pair_of_valid [] hv₃ hv₄)
  | ret => obtain ⟨hv₁, hv₂, -⟩ := h; exact firstInvalid_pair_of_valid [] hv₁ hv₂
  | unmapped op => rfl

/-- Of two accesses the faulting one is the first, or the second after a valid first. -/
theorem firstInvalid_pair {m : Memory} {kind : AccessKind} {addr x y : Word} (l : List (AccessKind × Word))
    (hi : ¬ m.valid addr.toNat) (h : addr = x ∨ m.valid x.toNat ∧ addr = y) :
    firstInvalid m ((kind, x) :: (kind, y) :: l) = some (kind, addr) := by
  obtain rfl | ⟨hv, rfl⟩ := h
  · exact firstInvalid_cons_of_invalid _ hi
  · rw [firstInvalid_cons_of_valid _ hv, firstInvalid_cons_of_invalid _ hi]

/-- An execution that faults did so at the first invalid access of its row. -/
theorem firstInvalid_of_faultedAs {i : Instr} {s t : State} {addr : Word} {kind : AccessKind} (hi : ¬ s.valid addr)
    (h : FaultedAs i (s.setPC (s.pc + 1)) addr kind t) :
    firstInvalid s.mem (accessesAfterOpcode i s.pc s.sp) = some (kind, addr) := by
  have operand := add_one_add_one s.pc
  cases i with
  | ldHLnn =>
    obtain ⟨rfl, ⟨rfl, -⟩ | ⟨hv, rfl, -⟩⟩ := h
    · exact firstInvalid_pair _ hi (.inl rfl)
    · exact firstInvalid_pair _ hi (.inr ⟨hv, operand⟩)
  | ldAn => obtain ⟨rfl, rfl, -⟩ := h; exact firstInvalid_cons_of_invalid _ hi
  | incA => cases h
  | decA => cases h
  | jpHL => cases h
  | pushHL =>
    obtain ⟨rfl, ⟨rfl, -⟩ | ⟨hv, rfl, -⟩⟩ := h
    · exact firstInvalid_pair _ hi (.inl rfl)
    · exact firstInvalid_pair _ hi (.inr ⟨hv, rfl⟩)
  | popHL =>
    obtain ⟨rfl, ⟨rfl, -⟩ | ⟨hv, rfl, -⟩⟩ := h
    · exact firstInvalid_pair _ hi (.inl rfl)
    · exact firstInvalid_pair _ hi (.inr ⟨hv, rfl⟩)
  | callnn =>
    obtain ⟨rfl, ⟨rfl, -⟩ | ⟨hv, rfl, -⟩⟩ | ⟨rfl, hv₁, hv₂, h⟩ := h
    · exact firstInvalid_pair _ hi (.inl rfl)
    · exact firstInvalid_pair _ hi (.inr ⟨hv, rfl⟩)
    · refine (firstInvalid_pair_of_valid _ hv₁ hv₂).trans ?_
      obtain ⟨rfl, -⟩ | ⟨hv, rfl, -⟩ := h
      · exact firstInvalid_pair _ hi (.inl rfl)
      · exact firstInvalid_pair _ hi (.inr ⟨hv, operand⟩)
  | ret =>
    obtain ⟨rfl, ⟨rfl, -⟩ | ⟨hv, rfl, -⟩⟩ := h
    · exact firstInvalid_pair _ hi (.inl rfl)
    · exact firstInvalid_pair _ hi (.inr ⟨hv, rfl⟩)
  | unmapped op => cases h

/-- Settles O19: a step completes or faults, and in either case its row of accesses answers for it. -/
theorem stepFaultsAtItsFirstInvalidAccess : Obligations.StepFaultsAtItsFirstInvalidAccess := by
  intro s
  obtain ⟨t, h⟩ | ⟨addr, kind, t, h⟩ := step_completes_or_faults s
  · obtain ⟨hv, completed⟩ := step_eq_next_iff.mp h
    have row : firstInvalid s.mem (stepAccesses (decodeOpcode (s.byteAt s.pc)) s.pc s.sp) = none :=
      (firstInvalid_cons_of_valid _ hv).trans (firstInvalid_of_completedAs completed)
    simp [row, h]
  · have row : firstInvalid s.mem (stepAccesses (decodeOpcode (s.byteAt s.pc)) s.pc s.sp) = some (kind, addr) := by
      obtain ⟨hi, ⟨rfl, rfl, rfl⟩ | ⟨hv, faulted⟩⟩ := step_eq_fault_iff.mp h
      · exact firstInvalid_cons_of_invalid _ hi
      · exact (firstInvalid_cons_of_valid _ hv).trans (firstInvalid_of_faultedAs hi faulted)
    simp [row, h, and_comm]

/-! ### The state a step leaves (R22, R157) -/

/-- Settles O22, kind by kind: the operand bytes stand after the opcode, and a call reads them in the memory it leaves. -/
theorem programCounterAfterAStep : Obligations.ProgramCounterAfterAStep := by
  intro s t h
  obtain ⟨-, completed⟩ := step_eq_next_iff.mp h
  generalize decodeOpcode (s.byteAt s.pc) = i at completed ⊢
  cases i with
  | ldHLnn => obtain ⟨-, -, rfl⟩ := completed; exact add_one_add_two s.pc
  | ldAn => obtain ⟨-, rfl⟩ := completed; exact add_one_add_one s.pc
  | incA => cases completed; rfl
  | decA => cases completed; rfl
  | jpHL => cases completed; rfl
  | pushHL => obtain ⟨-, -, rfl⟩ := completed; rfl
  | popHL => obtain ⟨-, -, rfl⟩ := completed; rfl
  | callnn =>
    obtain ⟨-, -, -, -, rfl⟩ := completed
    exact congrArg (joinBytes _) (congrArg (State.byteAt _) (add_one_add_one s.pc))
  | ret => obtain ⟨-, -, rfl⟩ := completed; rfl
  | unmapped op => cases completed; rfl

/-- Settles O24: a fetch that faults changes nothing; after it each kind has done what `FaultedAs` says, which R157's row
restates from the address of the opcode. -/
theorem stateAFaultLeaves : Obligations.StateAFaultLeaves := by
  intro s addr kind t h
  obtain ⟨hl, a⟩ := registers_of_step_fault h
  refine ⟨hl, a, fun invalid => ?_, fun hv => ?_⟩
  · cases (step_of_invalid invalid).symm.trans h
    rfl
  · obtain ⟨-, faulted⟩ := exec_eq_fault_iff.mp ((step_of_valid hv).symm.trans h)
    have operand := add_one_add_one s.pc
    have returns := add_one_add_two s.pc
    generalize decodeOpcode (s.byteAt s.pc) = i at faulted ⊢
    cases i with
    | ldHLnn =>
      obtain ⟨rfl, ⟨rfl, rfl⟩ | ⟨-, rfl, rfl⟩⟩ := faulted
      · exact ⟨rfl, .inl rfl⟩
      · exact ⟨rfl, .inr operand⟩
    | ldAn => obtain ⟨rfl, rfl, rfl⟩ := faulted; exact ⟨rfl, rfl⟩
    | incA => cases faulted
    | decA => cases faulted
    | jpHL => cases faulted
    | pushHL =>
      obtain ⟨rfl, ⟨rfl, rfl⟩ | ⟨-, rfl, rfl⟩⟩ := faulted
      · exact ⟨rfl, rfl, rfl, .inl ⟨rfl, rfl⟩⟩
      · exact ⟨rfl, rfl, rfl, .inr ⟨rfl, State.pushedHigh_byteAt_high s s.hl, sameMemoryBut_pushedHigh s s.hl⟩⟩
    | popHL =>
      obtain ⟨rfl, ⟨rfl, rfl⟩ | ⟨-, rfl, rfl⟩⟩ := faulted
      · exact ⟨rfl, .inl rfl⟩
      · exact ⟨rfl, .inr rfl⟩
    | callnn =>
      have high := State.pushed_byteAt_high s (s.pc + 3)
      have low := State.pushed_byteAt_low s (s.pc + 3)
      have frame := sameMemoryBut_pushed s (s.pc + 3)
      simp only [FaultedAs, State.setPC_pc, returns] at faulted
      obtain ⟨rfl, ⟨rfl, rfl⟩ | ⟨-, rfl, rfl⟩⟩ | ⟨rfl, -, -, ⟨rfl, rfl⟩ | ⟨-, rfl, rfl⟩⟩ := faulted
      · exact .inl ⟨rfl, rfl, rfl, .inl ⟨rfl, rfl⟩⟩
      · exact .inl ⟨rfl, rfl, rfl, .inr ⟨rfl, State.pushedHigh_byteAt_high s _, sameMemoryBut_pushedHigh s _⟩⟩
      · exact .inr ⟨rfl, rfl, .inl rfl, rfl, high, low, frame⟩
      · exact .inr ⟨rfl, rfl, .inr operand, rfl, high, low, frame⟩
    | ret =>
      obtain ⟨rfl, ⟨rfl, rfl⟩ | ⟨-, rfl, rfl⟩⟩ := faulted
      · exact ⟨rfl, .inl rfl⟩
      · exact ⟨rfl, .inr rfl⟩
    | unmapped op => cases faulted

/-- Settles O25: the byte after the last cell of the smaller memory is none, and a call pushes 0x0001 before it fetches
there. -/
theorem operandBeyondTheLastCellFaults : Obligations.OperandBeyondTheLastCellFaults := by
  intro s size pc
  have hv : s.valid s.pc := by simp [pc, size, MemSize.cells]
  have hi : ¬ s.valid 0xFFFF#16 := not_valid_iff.mpr ⟨size, rfl⟩
  have operand : s.pc + 1 = 0xFFFF#16 := by rw [pc]; rfl
  refine ⟨?_, fun hop hv₁ hv₂ => ?_⟩
  · rintro (hop | hop)
    · rw [step_of_opcode (i := .ldAn) rfl hv hop, operand]
      exact exec_of_faultedAs (i := .ldAn) hi ⟨rfl, rfl, rfl⟩
    · rw [step_of_opcode (i := .ldHLnn) rfl hv hop, operand]
      exact exec_of_faultedAs (i := .ldHLnn) hi ⟨rfl, .inl ⟨rfl, rfl⟩⟩
  · have high : (s.pushed (0xFFFF#16 + 2)).byteAt (s.sp - 1) = 0x00#8 := State.pushed_byteAt_high s _
    have low : (s.pushed (0xFFFF#16 + 2)).byteAt (s.sp - 2) = 0x01#8 := State.pushed_byteAt_low s _
    rw [step_of_opcode (i := .callnn) rfl hv hop, operand]
    exact ⟨_, exec_of_faultedAs (i := .callnn) hi (.inr ⟨rfl, hv₁, hv₂, .inl ⟨rfl, rfl⟩⟩), rfl, rfl, high, low⟩

/-! ### The outcome reported (R84, R153) -/

/-- Settles O56: the outcome of either end of a step, read off by whether the fetched byte is mapped. -/
theorem outcomeTellsHowTheStepEnded : Obligations.OutcomeTellsHowTheStepEnded := by
  intro s t
  obtain ⟨u, h⟩ | ⟨addr, kind, u, h⟩ := step_completes_or_faults s
  · rw [stepOutcome_of_next h, h]
    cases isUnmapped (s.byteAt s.pc) with
    | true => simp [eq_comm, and_comm]
    | false => simp
  · rw [stepOutcome_of_fault h, h]
    simp [and_assoc]

/-- A step of an unmapped opcode at a cell advances `PC` and does nothing else (R85). -/
theorem step_unmapped_eq_next_iff {s t : State} (hu : isUnmapped (s.byteAt s.pc) = true) :
    step s = .next t ↔ s.valid s.pc ∧ t = s.setPC (s.pc + 1) := by
  rw [step_eq_next_iff, (decodeOpcode_eq_unmapped _).mpr hu]
  rfl

/-- Settles O23: `OkUnknown` comes of a completed step of an unmapped byte, which is the fetch alone. -/
theorem unknownOpcodeIsReportedExactlyWhenUnmapped : Obligations.UnknownOpcodeIsReportedExactlyWhenUnmapped := by
  intro s t op addr
  obtain ⟨-, reported, -⟩ := outcomeTellsHowTheStepEnded s t
  rw [reported]
  constructor
  · rintro ⟨completed, hu, rfl, rfl⟩
    obtain ⟨hv, rfl⟩ := (step_unmapped_eq_next_iff hu).mp completed
    exact ⟨hv, rfl, hu, rfl, rfl⟩
  · rintro ⟨hv, rfl, hu, rfl, rfl⟩
    exact ⟨(step_unmapped_eq_next_iff hu).mpr ⟨hv, rfl⟩, hu, rfl, rfl⟩

/-- Settles O35: the execution is empty, so the step is its fetch, with the report of the byte. -/
theorem unmappedResult : Obligations.UnmappedResult := by
  refine ⟨fun op s => rfl, fun s hv hu => ?_, fun s => step_of_invalid⟩
  have run : step s = .next (s.setPC (s.pc + 1)) := (step_unmapped_eq_next_iff hu).mpr ⟨hv, rfl⟩
  have report := stepOutcome_of_next run
  rw [if_pos hu] at report
  exact ⟨run, report⟩

end Sys2Proof.Machine
end

section
/-! PROOFS. Frames: what each instruction leaves unchanged (10_state.md sections 3, 4 and 7; 20_memory.md section 9). -/

namespace Sys2Proof.Machine

/-- Settles O37: no kind named stores, and its next state keeps the fields it does not name. -/
theorem registerInstructionsFrame : Obligations.RegisterInstructionsFrame := by
  intro s t i h
  have completed := exec_eq_next_iff.mp h
  refine ⟨?_, ?_, ?_⟩
  · rintro rfl
    obtain ⟨-, -, rfl⟩ := completed
    exact ⟨rfl, rfl, sameMemoryBut_of_eq [] rfl⟩
  · rintro (rfl | rfl | rfl)
    · obtain ⟨-, rfl⟩ := completed
      exact ⟨rfl, rfl, sameMemoryBut_of_eq [] rfl⟩
    · cases completed
      exact ⟨rfl, rfl, sameMemoryBut_of_eq [] rfl⟩
    · cases completed
      exact ⟨rfl, rfl, sameMemoryBut_of_eq [] rfl⟩
  · rintro (rfl | ⟨op, rfl⟩)
    · cases completed
      exact ⟨rfl, rfl, rfl, sameMemoryBut_of_eq [] rfl⟩
    · cases completed
      exact ⟨rfl, rfl, rfl, sameMemoryBut_of_eq [] rfl⟩

/-- Settles O38: a pop reads memory only. -/
theorem poppingInstructionsFrame : Obligations.PoppingInstructionsFrame := by
  refine fun s t => ⟨fun h => ?_, fun h => ?_⟩
  · obtain ⟨-, -, rfl⟩ := exec_eq_next_iff.mp h
    exact ⟨rfl, rfl, rfl, sameMemoryBut_of_eq [] rfl⟩
  · obtain ⟨-, -, rfl⟩ := exec_eq_next_iff.mp h
    exact ⟨rfl, rfl, rfl, sameMemoryBut_of_eq [] rfl⟩

/-- Settles O39: both kinds leave the memory of one push. -/
theorem pushingInstructionsFrame : Obligations.PushingInstructionsFrame := by
  rintro s t i (rfl | rfl) h
  · obtain ⟨-, -, rfl⟩ := exec_eq_next_iff.mp h
    exact ⟨rfl, rfl, rfl, sameMemoryBut_pushed s _⟩
  · obtain ⟨-, -, -, -, rfl⟩ := exec_eq_next_iff.mp h
    exact ⟨rfl, rfl, rfl, sameMemoryBut_pushed s _⟩

/-- Everything an execution that completes can have written: each piece of state is as before, or the kind is one of those
that write it (R23 to R25, R56). -/
theorem completedAs_writes {i : Instr} {s t : State} (h : CompletedAs i s t) :
    SameMemoryBut (storedAddresses i s.sp) s t ∧
      (t.mem = s.mem ∨ i = .pushHL ∨ i = .callnn) ∧
      (t.sp = s.sp ∨ i ∈ [.pushHL, .popHL, .callnn, .ret]) ∧
      (t.hl = s.hl ∨ i ∈ [.ldHLnn, .popHL]) ∧
      (t.a = s.a ∨ i ∈ [.ldAn, .incA, .decA]) := by
  cases i with
  | ldHLnn =>
    obtain ⟨-, -, rfl⟩ := h
    exact ⟨sameMemoryBut_of_eq _ rfl, .inl rfl, .inl rfl, .inr (by decide), .inl rfl⟩
  | ldAn =>
    obtain ⟨-, rfl⟩ := h
    exact ⟨sameMemoryBut_of_eq _ rfl, .inl rfl, .inl rfl, .inl rfl, .inr (by decide)⟩
  | incA => cases h; exact ⟨sameMemoryBut_of_eq _ rfl, .inl rfl, .inl rfl, .inl rfl, .inr (by decide)⟩
  | decA => cases h; exact ⟨sameMemoryBut_of_eq _ rfl, .inl rfl, .inl rfl, .inl rfl, .inr (by decide)⟩
  | jpHL => cases h; exact ⟨sameMemoryBut_of_eq _ rfl, .inl rfl, .inl rfl, .inl rfl, .inl rfl⟩
  | pushHL =>
    obtain ⟨-, -, rfl⟩ := h
    exact ⟨sameMemoryBut_pushed s _, .inr (.inl rfl), .inr (by decide), .inl rfl, .inl rfl⟩
  | popHL =>
    obtain ⟨-, -, rfl⟩ := h
    exact ⟨sameMemoryBut_of_eq _ rfl, .inl rfl, .inr (by decide), .inr (by decide), .inl rfl⟩
  | callnn =>
    obtain ⟨-, -, -, -, rfl⟩ := h
    exact ⟨sameMemoryBut_pushed s _, .inr (.inr rfl), .inr (by decide), .inl rfl, .inl rfl⟩
  | ret =>
    obtain ⟨-, -, rfl⟩ := h
    exact ⟨sameMemoryBut_of_eq _ rfl, .inl rfl, .inr (by decide), .inl rfl, .inl rfl⟩
  | unmapped op => cases h; exact ⟨sameMemoryBut_of_eq _ rfl, .inl rfl, .inl rfl, .inl rfl, .inl rfl⟩

/-- No kind stores outside the two slots below `SP` (R56). -/
theorem storedAddresses_subset (i : Instr) (x : Word) : ∀ y ∈ storedAddresses i x, y ∈ [x - 1, x - 2] := by
  cases i with
  | pushHL => exact fun _ h => h
  | callnn => exact fun _ h => h
  | ldHLnn | ldAn | incA | decA | jpHL | popHL | ret | unmapped => exact fun _ h => nomatch h

/-- Settles O40: a kind that writes a piece of state has its opcode in the piece's list. -/
theorem onlyTheNamedOpcodesWriteEachPieceOfState : Obligations.OnlyTheNamedOpcodesWriteEachPieceOfState := by
  intro s t h
  obtain ⟨-, completed⟩ := step_eq_next_iff.mp h
  obtain ⟨frame, mem, sp, hl, a⟩ := completedAs_writes completed
  have opcode {l : List Instr} (hi : decodeOpcode (s.byteAt s.pc) ∈ l) : s.byteAt s.pc ∈ l.map Instr.opcode :=
    List.mem_map.mpr ⟨_, hi, opcode_decodeOpcode _⟩
  refine ⟨SameMemoryBut.mono frame (storedAddresses_subset _ _), fun notPush notCall => ?_, fun off => ?_,
    fun off => ?_, fun off => ?_⟩
  · obtain kept | push | call := mem
    · exact kept
    · exact absurd ((decodeOpcode_eq_iff rfl).mp push) notPush
    · exact absurd ((decodeOpcode_eq_iff rfl).mp call) notCall
  · exact sp.resolve_right (mt opcode off)
  · exact hl.resolve_right (mt opcode off)
  · exact a.resolve_right (mt opcode off)

end Sys2Proof.Machine
end

section
/-! PROOFS. Instructions after one another: a load then a jump (43_jump.md R121), a push then a pop of the other kind
(44_stack.md R135), the two byte orders (20_memory.md R48), and runs that never end (70_reset_and_hazards.md R194). -/

namespace Sys2Proof.Machine

/-- Settles O44: the load leaves `HL = nn` with the jump at `PC`. -/
theorem loadThenJumpReachesTheImmediate : Obligations.LoadThenJumpReachesTheImmediate := by
  intro s nn load jump
  obtain ⟨hv, hop, -⟩ := standsAt_iff.mp jump
  have jumped := step_jpHL (s := { s with hl := nn, pc := s.pc + 3 }) hv hop
  exact (runsTo_succ_of_next (step_of_standing_ldHLnn load)).mpr
    ((runsTo_succ_of_next jumped).mpr (runsTo_zero.mpr rfl))

/-- Settles O47: both pushes leave the layout `pop16_pushed` reads; where a call has gone does not matter to the pop. -/
theorem eitherPushServesEitherPop : Obligations.EitherPushServesEitherPop := by
  refine ⟨fun s t h => ?_, fun s t h => ?_⟩
  · obtain ⟨hv₁, hv₂, rfl⟩ := exec_eq_next_iff.mp h
    exact execRet_of_pop (pop16_pushed s.hl hv₁ hv₂)
  · obtain ⟨hv₁, hv₂, -, -, rfl⟩ := exec_eq_next_iff.mp h
    have popped (target : Word) := execPopHL_of_pop (pop16_pushed (s := s.setPC target) (s.pc + 2) hv₁ hv₂)
    exact popped _

/-- Settles O48: the byte at the new `SP` is the low one, which an immediate has as its high byte. -/
theorem pushedWordReadAsImmediateIsSwapped : Obligations.PushedWordReadAsImmediateIsSwapped := by
  intro s t h
  obtain ⟨hv₁, hv₂, rfl⟩ := exec_eq_next_iff.mp h
  have second : s.sp - 2 + 1 = s.sp - 1 := sub_two_add_one s.sp
  have back : s.sp - 2 + 2 = s.sp := BitVec.sub_add_cancel s.sp 2
  have run := exec_of_completedAs (i := .ldHLnn) (s := (s.pushed s.hl).setPC (s.sp - 2)) ⟨hv₂, second ▸ hv₁, rfl⟩
  simp only [State.setPC_pc, State.setPC_byteAt, second, back, State.pushed_byteAt_high, State.pushed_byteAt_low] at run
  exact run

/-- Settles O49, by induction on the number of steps: each leaves the state it began in. -/
theorem jumpToItselfLoopsForEver : Obligations.JumpToItselfLoopsForEver := by
  intro k s jump self
  obtain ⟨hv, hop, -⟩ := standsAt_iff.mp jump
  induction k with
  | zero => exact runsTo_zero.mpr rfl
  | succ k ih => exact (runsTo_succ_of_next (step_jpHL_to_itself hv hop self)).mpr ih

/-- Settles O50, by induction on the number of steps: each is the advance of `PC` alone, and every address is a cell. -/
theorem unmappedMemoryIsWalkedForEver : Obligations.UnmappedMemoryIsWalkedForEver := by
  intro k
  induction k with
  | zero => exact fun s _ _ => runsTo_zero.mpr (by simp)
  | succ k ih =>
    intro s size unmapped
    have hv : s.valid s.pc := by simpa [size, MemSize.cells] using s.pc.isLt
    have first := (step_unmapped_eq_next_iff (unmapped s.pc)).mpr ⟨hv, rfl⟩
    have rest := ih (s.setPC (s.pc + 1)) size unmapped
    have sum : s.pc + 1 + BitVec.ofNat 16 k = s.pc + BitVec.ofNat 16 (k + 1) := by
      rw [Nat.add_comm, BitVec.ofNat_add]
      exact BitVec.add_assoc s.pc 1 _
    rw [State.setPC_pc, sum] at rest
    exact (runsTo_succ_of_next first).mpr rest

end Sys2Proof.Machine
end

section
/-! PROOFS. The host interface (70_reset_and_hazards.md R181 to R185, 10_state.md R33 and R36, 60_exceptions.md R158): what
each request is answered, phase by phase. That a run has phases is the model's reading (log 9). -/

namespace Sys2Proof.Machine

/-! ### Writes (R33) -/

theorem hostWrite_of_boot {c : Session} (s : State) (h : c.phase = .boot) : hostWrite c s = .ok (⟨s, .boot⟩, .done) := by
  simp [hostWrite, h]

theorem hostWrite_of_running {c : Session} (s : State) (h : c.phase = .running) :
    hostWrite c s = .error .writeDuringRun := by
  simp [hostWrite, h]

theorem hostWrite_of_failed {c : Session} (s : State) (h : c.phase = .failed) :
    hostWrite c s = .error .writeDuringRun := by
  simp [hostWrite, h]

theorem hostWrite_of_discarded {c : Session} (s : State) (h : c.phase = .discarded) :
    hostWrite c s = .error .afterDiscard := by
  simp [hostWrite, h]

/-- After the first step every write is refused, for one reason in each phase. -/
theorem hostWrite_refused {c : Session} (h : c.phase ≠ .boot) : ∃ e, ∀ s, hostWrite c s = .error e := by
  cases phase : c.phase with
  | boot => exact absurd phase h
  | running => exact ⟨_, fun s => hostWrite_of_running s phase⟩
  | failed => exact ⟨_, fun s => hostWrite_of_failed s phase⟩
  | discarded => exact ⟨_, fun s => hostWrite_of_discarded s phase⟩

theorem hostWriteCell_of_valid {c : Session} {addr : Nat} (value : Nat) (h : c.state.mem.valid addr) :
    hostWriteCell c addr value = hostWrite c (c.state.setMem (c.state.mem.set addr (BitVec.ofNat 8 value))) := by
  simp [hostWriteCell, Memory.write, h]

theorem hostWriteCell_of_boot_invalid {c : Session} {addr : Nat} (value : Nat) (h : ¬ c.state.mem.valid addr)
    (phase : c.phase = .boot) : hostWriteCell c addr value = .ok (⟨c.state, .boot⟩, .outOfRange addr .write) := by
  simp [hostWriteCell, Memory.write, h, hostWrite_of_boot _ phase]

/-- A write of a cell that is refused as a write is refused, whether the address is a cell or none. -/
theorem hostWriteCell_of_refused {c : Session} {e : HostRefusal} (addr value : Nat)
    (h : ∀ s, hostWrite c s = .error e) : hostWriteCell c addr value = .error e := by
  by_cases hv : c.state.mem.valid addr
  · rw [hostWriteCell_of_valid value hv, h]
  · simp [hostWriteCell, Memory.write, hv, h]

/-! ### Reads and the discard (R33, R36) -/

theorem hostRead_of_not_discarded {c : Session} (v : HostAnswer) (h : c.phase ≠ .discarded) :
    hostRead c v = .ok (c, v) := by
  cases phase : c.phase with
  | discarded => exact absurd phase h
  | boot | running | failed => simp [hostRead, phase]

theorem hostRead_of_discarded {c : Session} (v : HostAnswer) (h : c.phase = .discarded) :
    hostRead c v = .error .afterDiscard := by
  simp [hostRead, h]

/-- A read that is answered changes nothing. -/
theorem session_of_hostRead {c c' : Session} {v w : HostAnswer} (h : hostRead c v = .ok (c', w)) : c' = c := by
  by_cases phase : c.phase = .discarded
  · exact nomatch (hostRead_of_discarded v phase).symm.trans h
  · cases (hostRead_of_not_discarded v phase).symm.trans h
    rfl

theorem serve_readCell_of_valid {c : Session} {addr : Nat} (h : c.state.mem.valid addr) :
    serve c (.readCell addr) = hostRead c (.byte (c.state.mem.get addr)) := by
  simp [serve, Memory.read, h]

theorem serve_readCell_of_invalid {c : Session} {addr : Nat} (h : ¬ c.state.mem.valid addr) :
    serve c (.readCell addr) = hostRead c (.outOfRange addr .read) := by
  simp [serve, Memory.read, h]

theorem readsAnswer_of_not_discarded {c : Session} (h : c.phase ≠ .discarded) : ReadsAnswer c := by
  have answered (v : HostAnswer) : hostRead c v = .ok (c, v) := hostRead_of_not_discarded v h
  refine ⟨answered _, answered _, answered _, answered _, answered _, answered _, fun n => ⟨fun hv => ?_, fun hv => ?_⟩⟩
  · rw [serve_readCell_of_valid hv, answered]
  · rw [serve_readCell_of_invalid hv, answered]

theorem hostDiscard_of_not_discarded {c : Session} (h : c.phase ≠ .discarded) :
    hostDiscard c = .ok (⟨c.state, .discarded⟩, .done) := by
  cases phase : c.phase with
  | discarded => exact absurd phase h
  | boot | running | failed => simp [hostDiscard, phase]

theorem hostDiscard_of_discarded {c : Session} (h : c.phase = .discarded) : hostDiscard c = .error .afterDiscard := by
  simp [hostDiscard, h]

/-! ### The step (R183, R158) -/

theorem hostStep_of_outcome {c : Session} {o : StepOutcome} {t : State} (h : c.phase = .boot ∨ c.phase = .running)
    (ends : stepOutcome c.state = some (o, t)) : hostStep c = .ok (⟨t, phaseAfter o⟩, .outcome o) := by
  obtain phase | phase := h <;> simp [hostStep, phase, ends]

theorem hostStep_of_failed {c : Session} (h : c.phase = .failed) : hostStep c = .error .stepAfterFault := by
  simp [hostStep, h]

theorem hostStep_of_discarded {c : Session} (h : c.phase = .discarded) : hostStep c = .error .afterDiscard := by
  simp [hostStep, h]

theorem phaseAfter_eq (o : StepOutcome) : phaseAfter o = .running ∨ phaseAfter o = .failed := by
  cases o with
  | ok => exact .inl rfl
  | okUnknown op addr => exact .inl rfl
  | fault addr kind => exact .inr rfl

/-- A step that is answered leaves the run going on or failed. -/
theorem phase_of_hostStep {c c' : Session} {v : HostAnswer} (h : hostStep c = .ok (c', v)) :
    c'.phase = .running ∨ c'.phase = .failed := by
  have goesOn : c.phase = .boot ∨ c.phase = .running := by
    cases phase : c.phase with
    | boot => exact .inl rfl
    | running => exact .inr rfl
    | failed => exact nomatch (hostStep_of_failed phase).symm.trans h
    | discarded => exact nomatch (hostStep_of_discarded phase).symm.trans h
  obtain ⟨⟨o, t, ends⟩, -⟩ := stepIsTotal c.state
  cases (hostStep_of_outcome goesOn ends).symm.trans h
  exact phaseAfter_eq o

/-! ### The statements -/

/-- Settles O51: a write is refused, since the phase is not `boot`, reads change nothing, a discard changes the phase; and a step
leaves a phase in which every write is refused. -/
theorem afterTheFirstStepOnlyStepsChangeState : Obligations.AfterTheFirstStepOnlyStepsChangeState := by
  refine ⟨fun c c' r v begun notStep h => ?_, fun c c' v h => ?_⟩
  · have read {v w : HostAnswer} (h : hostRead c v = .ok (c', w)) : c'.state = c.state ∧ c'.phase ≠ .boot := by
      rw [session_of_hostRead h]
      exact ⟨rfl, begun⟩
    obtain ⟨e, refused⟩ := hostWrite_refused begun
    cases r with
    | writeCell addr value => exact nomatch (hostWriteCell_of_refused addr value refused).symm.trans h
    | setPC value | setSP value | setHL value | setA value => exact nomatch (refused _).symm.trans h
    | step => exact absurd rfl notStep
    | readPC | readSP | readHL | readH | readL | readA => exact read h
    | readCell addr =>
      by_cases hv : c.state.mem.valid addr
      · exact read ((serve_readCell_of_valid hv).symm.trans h)
      · exact read ((serve_readCell_of_invalid hv).symm.trans h)
    | discard =>
      by_cases phase : c.phase = .discarded
      · exact nomatch (hostDiscard_of_discarded phase).symm.trans h
      · cases (hostDiscard_of_not_discarded phase).symm.trans h
        exact ⟨rfl, by simp⟩
  · have ended := phase_of_hostStep h
    have refused (s : State) : hostWrite c' s = .error .writeDuringRun :=
      ended.elim (hostWrite_of_running s) (hostWrite_of_failed s)
    refine ⟨by rcases ended with phase | phase <;> simp [phase], fun n m => ?_⟩
    simp only [List.forall_mem_cons]
    exact ⟨refused _, refused _, refused _, refused _, hostWriteCell_of_refused m n refused, fun _ h => nomatch h⟩

/-- Settles O52: the fault brings the phase `failed`, which refuses a step and answers reads. -/
theorem faultEndsTheRun : Obligations.FaultEndsTheRun := fun _ _ _ t phase h =>
  ⟨hostStep_of_outcome phase (stepOutcome_of_fault h), hostStep_of_failed (c := ⟨t, .failed⟩) rfl,
    readsAnswer_of_not_discarded (by simp)⟩

/-- Settles O53: a number stored in a register of the machine is taken modulo the register's width. -/
theorem hostSetsRegistersModuloTheirWidth : Obligations.HostSetsRegistersModuloTheirWidth := fun _ v phase =>
  ⟨⟨BitVec.ofNat 16 v, BitVec.toNat_ofNat v 16, hostWrite_of_boot _ phase, hostWrite_of_boot _ phase,
      hostWrite_of_boot _ phase⟩,
    ⟨BitVec.ofNat 8 v, BitVec.toNat_ofNat v 8, hostWrite_of_boot _ phase⟩⟩

/-- Settles O55: before the discard by the laws of reads, after it each kind of request is refused. -/
theorem hostReadsAnswerTheStateUntilDiscard : Obligations.HostReadsAnswerTheStateUntilDiscard := by
  refine ⟨fun c h => ⟨readsAnswer_of_not_discarded h, hostDiscard_of_not_discarded h⟩, fun c r h => ?_⟩
  cases r with
  | writeCell addr value => exact hostWriteCell_of_refused addr value fun s => hostWrite_of_discarded s h
  | setPC value | setSP value | setHL value | setA value => exact hostWrite_of_discarded _ h
  | step => exact hostStep_of_discarded h
  | readPC | readSP | readHL | readH | readL | readA => exact hostRead_of_discarded _ h
  | readCell addr =>
    by_cases hv : c.state.mem.valid addr
    · exact (serve_readCell_of_valid hv).trans (hostRead_of_discarded _ h)
    · exact (serve_readCell_of_invalid hv).trans (hostRead_of_discarded _ h)
  | discard => exact hostDiscard_of_discarded h

/-- Settles O57: a completed step's outcome is no fault, so the phase after it is `running`. -/
theorem completedStepIsAnsweredAndTheRunGoesOn : Obligations.CompletedStepIsAnsweredAndTheRunGoesOn := by
  intro c t phase h
  have answer := hostStep_of_outcome phase (stepOutcome_of_next h)
  split at answer
  · next hu => rw [if_pos hu]; exact answer
  · next hu => rw [if_neg hu]; exact answer

/-! ### Loading an image (R182) -/

/-- The host's write of one byte to a cell before the first step. -/
theorem serve_writeCell_of_boot {c : Session} {addr : Nat} (b : Byte) (h : c.state.mem.valid addr)
    (phase : c.phase = .boot) :
    serve c (.writeCell addr b.toNat) = .ok (⟨c.state.setMem (c.state.mem.set addr b), .boot⟩, .done) := by
  rw [serve, hostWriteCell_of_valid _ h, hostWrite_of_boot _ phase, BitVec.ofNat_toNat, BitVec.setWidth_eq]

/-- A piece goes on after a byte that is written. -/
theorem loadPiece_cons_of_valid {c : Session} {base : Nat} (b : Byte) (rest : List Byte) (h : c.state.mem.valid base)
    (phase : c.phase = .boot) :
    loadPiece c base (b :: rest) = loadPiece ⟨c.state.setMem (c.state.mem.set base b), .boot⟩ (base + 1) rest := by
  rw [loadPiece, serve_writeCell_of_boot b h phase]

/-- A piece ends at a byte whose address is no cell. -/
theorem loadPiece_cons_of_invalid {c : Session} {base : Nat} (b : Byte) (rest : List Byte)
    (h : ¬ c.state.mem.valid base) (phase : c.phase = .boot) :
    loadPiece c base (b :: rest) = .ok (⟨c.state, .boot⟩, .outOfRange base .write) := by
  rw [loadPiece, serve, hostWriteCell_of_boot_invalid _ h phase]

/-- A piece that fits is done, and its bytes stand where it put them. -/
theorem loadPiece_of_fits {c : Session} {base : Nat} {bs : List Byte} (phase : c.phase = .boot)
    (fits : base + bs.length ≤ c.state.mem.size.cells) :
    ∃ m : Memory, loadPiece c base bs = .ok (⟨c.state.setMem m, .boot⟩, .done) ∧ m.size = c.state.mem.size ∧
      ∀ n, m.get n =
        if base ≤ n ∧ n < base + bs.length then bs.getD (n - base) 0x00#8 else c.state.mem.get n := by
  induction bs generalizing c base with
  | nil =>
    obtain ⟨s, p⟩ := c
    cases phase
    exact ⟨s.mem, rfl, rfl, fun n => by rw [if_neg (by simp)]⟩
  | cons b rest ih =>
    rw [List.length_cons] at fits ⊢
    have hv : c.state.mem.valid base := by unfold Memory.valid; omega
    obtain ⟨m, done, size, get⟩ :=
      ih (c := ⟨c.state.setMem (c.state.mem.set base b), .boot⟩) (base := base + 1) rfl
        (by show base + 1 + rest.length ≤ c.state.mem.size.cells; omega)
    refine ⟨m, (loadPiece_cons_of_valid b rest hv phase).trans done, size, fun n => ?_⟩
    obtain rfl | other := eq_or_ne base n
    · rw [get, if_neg (by omega), if_pos (by omega), Nat.sub_self]
      exact Memory.get_set_same ..
    · rw [get]
      by_cases within : base + 1 ≤ n ∧ n < base + 1 + rest.length
      · have index : n - base = n - (base + 1) + 1 := by omega
        rw [if_pos within, if_pos (by omega), index, List.getD_cons_succ]
      · rw [if_neg within, if_neg (by omega)]
        exact Memory.get_set_other _ _ other

/-- A piece with a byte past the last cell is answered with the first address that is no cell. -/
theorem loadPiece_of_not_fits {c : Session} {base : Nat} {bs : List Byte} (phase : c.phase = .boot) (nonempty : bs ≠ [])
    (past : ¬ base + bs.length ≤ c.state.mem.size.cells) :
    ∃ m : Memory, loadPiece c base bs =
      .ok (⟨c.state.setMem m, .boot⟩, .outOfRange (max base c.state.mem.size.cells) .write) := by
  induction bs generalizing c base with
  | nil => exact absurd rfl nonempty
  | cons b rest ih =>
    rw [List.length_cons] at past
    by_cases hv : c.state.mem.valid base
    · have room : base + 1 ≤ c.state.mem.size.cells := hv
      have more : rest ≠ [] := by
        rintro rfl
        exact past room
      obtain ⟨m, answer⟩ := ih (c := ⟨c.state.setMem (c.state.mem.set base b), .boot⟩) (base := base + 1) rfl more
        (by show ¬ base + 1 + rest.length ≤ c.state.mem.size.cells; omega)
      have first : max (base + 1) c.state.mem.size.cells = max base c.state.mem.size.cells := by omega
      refine ⟨m, (loadPiece_cons_of_valid b rest hv phase).trans (answer.trans ?_)⟩
      rw [← first]
      rfl
    · have first : base = max base c.state.mem.size.cells := (max_eq_left (Nat.le_of_not_lt hv)).symm
      refine ⟨c.state.mem, (loadPiece_cons_of_invalid b rest hv phase).trans ?_⟩
      rw [← first]
      rfl

/-- Settles O54: a piece of no bytes writes nothing; the other two cases are the laws above. -/
theorem loadedPieceIsReadBack : Obligations.LoadedPieceIsReadBack := by
  intro c base bs phase
  refine ⟨loadPiece_of_fits phase, fun past nonempty => loadPiece_of_not_fits phase nonempty past, ?_⟩
  rintro rfl
  rfl

end Sys2Proof.Machine
end
